-- ==== Sys2Proof/Word.lean ====
section
/-!
DEFINITION. The three widths the spec moves data in: a byte, a 32-bit word, a 16-bit command word (R7, R60).
-/

namespace Sys2Proof

/-- A message byte, one cell of `BUF` (R7: "Byte = 8 bits"). -/
abbrev Byte := BitVec 8

/-- A register of `H`, a schedule word, a working variable (R7: "Word = 32 bits"). -/
abbrev Word := BitVec 32

/-- What the host presents on `cmd` (R60, R66). -/
abbrev CmdWord := BitVec 16

/-- The 160 bits on `rsp_digest` (R65). -/
abbrev Payload := BitVec 160

end Sys2Proof
end

