-- ==== Sys2Proof/Syntax.lean ====
section
/-!
DEFINITION. The commands of SHA1-CORE: one constructor per row of spec/opcode_table.json (R61).
`COMPRESS` is a micro-operation without a word (R69), so it is no constructor here; `FEEDS` and `HASH` are
pseudo-commands that expand to several commands (R68; Machine/Assembler.lean).
-/

namespace Sys2Proof

/-- The five commands of R61. -/
inductive Instr where
  /-- `INIT` (R130): start a fresh session. -/
  | init
  /-- `FEED b` (R80): append the message byte `b`. -/
  | feed (b : Byte)
  /-- `FINALIZE` (R90): pad, run the last compression or two, close the session. -/
  | finalize
  /-- `RENDER` (R120): return the digest of a finalized session. -/
  | render
  /-- `DIGEST` (R131): finalize if that has not been done, then return the digest. -/
  | digest
  deriving DecidableEq, Repr

/-- A command's name in R61 and in spec/opcode_table.json. -/
def Instr.mnemonic : Instr → String
  | .init => "INIT"
  | .feed _ => "FEED"
  | .finalize => "FINALIZE"
  | .render => "RENDER"
  | .digest => "DIGEST"

end Sys2Proof
end

