-- ==== Sys2Proof/WellFormed.lean ====
section
/-!
DEFINITION. What the spec checks of a command before it runs.

The only operand of any command is `FEED`'s byte, and "every d is legal" there (R62, R80): `Instr.feed` carries it
as an 8-bit value, so a command that cannot be encoded cannot be built and `Instr.WellFormed` refuses none.
The checks the spec makes are made on the 16-bit WORD (R60, R63), one definition each below; `wordLegal` is their
conjunction, written as R63 says it and apart from the decoder, so that a statement may hold one against the other.
-/

namespace Sys2Proof

/-- Every command is well formed: R62, R80 ("every `d` is legal"). -/
def Instr.WellFormed : Instr → Bool
  | .init => true
  | .feed b => decide (b.toNat < 256)
  | .finalize => true
  | .render => true
  | .digest => true

/-- R63, first clause: not (`op = 0x0` or `op >= 0x6`). -/
def opLegal (w : CmdWord) : Bool := decide (0x1000 ≤ w.toNat ∧ w.toNat < 0x6000)

/-- R60: bits 11:8 "must be `0000`". -/
def reservedZero (w : CmdWord) : Bool := decide (w.toNat / 0x100 % 0x10 = 0)

/-- R60: `d` "must be `00000000` for every other command" than `FEED`. -/
def dataZeroUnlessFeed (w : CmdWord) : Bool :=
  decide (w.toNat / 0x1000 = 2 ∨ w.toNat % 0x100 = 0)

/-- A word that some row of R61 matches, said by the three clauses of R63. -/
def wordLegal (w : CmdWord) : Bool := opLegal w && reservedZero w && dataZeroUnlessFeed w

end Sys2Proof
end

