-- ==== Sys2Proof/Decode.lean ====
section
/-!
DEFINITION. The command decoder, total on all 65536 words (R63: "the decoder is total"), and the encoder
(R60, R61, R62). The command port is 16 bits wide and takes a whole word at a time (R66), so there is no byte order.
-/

namespace Sys2Proof

/-- Why a word is no command (R63). Every reason is answered alike, by status `IllegalCommand` (R143). -/
inductive Illegal where
  /-- `op = 0x0` or `op >= 0x6`. -/
  | opcode
  /-- `z != 0`. -/
  | reservedField
  /-- `d != 0` on a command without an operand. -/
  | dataField
  deriving DecidableEq, Repr

/-- What the decoder makes of a word. -/
inductive Decoded where
  | command (i : Instr)
  | illegal (why : Illegal)
  deriving DecidableEq, Repr

/-- Bits 15:12 (R60). -/
def opField (w : CmdWord) : BitVec 4 := w.extractLsb' 12 4

/-- Bits 11:8 (R60). -/
def zField (w : CmdWord) : BitVec 4 := w.extractLsb' 8 4

/-- Bits 7:0 (R60); the operand byte of `FEED` (R62). -/
def dField (w : CmdWord) : Byte := w.extractLsb' 0 8

/-- A command without an operand is one only when `d` is zero (R60, R63). -/
def withoutOperand (i : Instr) (d : Byte) : Decoded :=
  if d = 0 then .command i else .illegal .dataField

/-- The decoder: R60 to R63. -/
def decode (w : CmdWord) : Decoded :=
  if zField w = 0 then
    match (opField w).toNat with
    | 1 => withoutOperand .init (dField w)
    | 2 => .command (.feed (dField w))
    | 3 => withoutOperand .finalize (dField w)
    | 4 => withoutOperand .render (dField w)
    | 5 => withoutOperand .digest (dField w)
    | _ => .illegal .opcode
  else .illegal .reservedField

/-- A command's `op` field (R61). -/
def opcode : Instr → BitVec 4
  | .init => 1
  | .feed _ => 2
  | .finalize => 3
  | .render => 4
  | .digest => 5

/-- A command's `d` field (R60, R62). -/
def dataByte : Instr → Byte
  | .init => 0
  | .feed b => b
  | .finalize => 0
  | .render => 0
  | .digest => 0

/-- The word of a command: `op`, four zero bits, `d` (R60). -/
def encode (i : Instr) : CmdWord := opcode i ++ (0 : BitVec 4) ++ dataByte i

/-- One row of R61's opcode map. -/
structure OpRow where
  mnemonic : String
  /-- the row's `match` column -/
  value : CmdWord
  mask : CmdWord
  deriving DecidableEq, Repr

/-- R61's opcode map. -/
def opMap : List OpRow :=
  [ { mnemonic := "INIT", value := 0x1000, mask := 0xFFFF },
    { mnemonic := "FEED", value := 0x2000, mask := 0xFF00 },
    { mnemonic := "FINALIZE", value := 0x3000, mask := 0xFFFF },
    { mnemonic := "RENDER", value := 0x4000, mask := 0xFFFF },
    { mnemonic := "DIGEST", value := 0x5000, mask := 0xFFFF } ]

/-- R61: a word `w` selects the row whose `(w & mask) = match`. -/
def OpRow.selects (r : OpRow) (w : CmdWord) : Bool := decide (w &&& r.mask = r.value)

/-- What the decoder reads from the word with bits `w`, as the opcode table numbers them: one 16-bit word, bit 0 its
least significant bit. -/
def decodeTableWord (_nbits w : Nat) : Option Instr :=
  if w < 65536 then
    match decode (BitVec.ofNat 16 w) with
    | .command i => some i
    | .illegal _ => none
  else none

end Sys2Proof
end

