-- ==== Sys2Proof/Config.lean ====
section
/-!
DEFINITION. What the spec leaves open: the content of `BUF` after a reset, and three parameters of an implementation.
Each is an opaque constant without a body: no proof can learn its value.
-/

namespace Sys2Proof

/-- The byte at offset `a` of `BUF` after the reset number `era` (R24: "unspecified, any 64 bytes"; "A model must not
give `BUF` a reset value that a proof could lean on: take it as a free input"). A free value (log entry 1). -/
opaque Config.bufAtReset (era a : Nat) : Byte

/-- How many cycles more than one command `i` takes (R167; log entry 9). The model has no time: nothing reads it. -/
opaque Config.cmdExtraCycles (i : Instr) : Nat

/-- `T_CMD(c)` (R6, R167): finite and at least 1, otherwise open. -/
def Config.tCmd (i : Instr) : Nat := Config.cmdExtraCycles i + 1

/-- How many cycles more than one a compression takes (R167; log entry 9). Nothing reads it. -/
opaque Config.compressExtraCycles : Nat

/-- `T_COMPRESS` (R6, R167): finite and at least 1, otherwise open. -/
def Config.tCompress : Nat := Config.compressExtraCycles + 1

/-- What `RST_STYLE` covers: "the polarity, width and synchronism of the reset input" (R6). -/
structure RstStyle where
  activeHigh : Bool
  minWidth : Nat
  synchronous : Bool
  deriving DecidableEq, Repr, Inhabited

/-- `RST_STYLE` (R6, R160): open, and "no rule depends on it". Nothing reads it (log entry 9). -/
opaque Config.rstStyle : RstStyle

end Sys2Proof
end

