-- ==== Sys2Proof/Machine/Rom.lean ====
section
/-!
DEFINITION. The five registers `H`, and the two read-only tables of the hardware, `IV` (R11) and `K` (R12). They are
constants, not state: no command writes them (R50).
-/

namespace Sys2Proof.Machine

/-- The five registers `H[0..4]` (R10), "the only general registers"; the same shape holds a chaining value. -/
structure Chain where
  h0 : Word
  h1 : Word
  h2 : Word
  h3 : Word
  h4 : Word
  deriving DecidableEq, Repr

/-- `H[i]` by its number. -/
def Chain.get (c : Chain) : Fin 5 → Word
  | 0 => c.h0
  | 1 => c.h1
  | 2 => c.h2
  | 3 => c.h3
  | 4 => c.h4

/-- `IV[0..4]`, the initialization vector (R11). -/
def iv : Chain :=
  { h0 := 0x67452301, h1 := 0xEFCDAB89, h2 := 0x98BADCFE, h3 := 0x10325476, h4 := 0xC3D2E1F0 }

/-- `K[s]`, the round constant of stage `s` = 0..3 (R12). -/
def roundConstant : Nat → Word
  | 0 => 0x5A827999
  | 1 => 0x6ED9EBA1
  | 2 => 0x8F1BBCDC
  | _ => 0xCA62C1D6

end Sys2Proof.Machine
end

