-- ==== Sys2Proof/Machine/State.lean ====
section
/-!
DEFINITION. The state of SHA1-CORE: the record `(H, BUF, FILL, LEN, ST)` of 10_state.md, the response port (R66), and
two fields of the model's own: the host's inputs still to come, and a count of resets that selects the free content
of `BUF`. `W`, `A`..`E`, `TEMP` and `t` are no state: they live inside one `COMPRESS` (R18, D27).
-/

namespace Sys2Proof.Machine

/-- `ST` (R16). Its 2-bit value 3 is never reached, so it is no constructor (U12). -/
inductive Lifecycle where
  | accepting
  | overflowed
  | finalized
  deriving DecidableEq, Repr

/-- The status of a response (R64). The 3-bit codes 5, 6, 7 are never produced, so they are no constructors (U12). -/
inductive Status where
  | ok
  | invalidState
  | overflowed
  | notFinalized
  | illegalCommand
  deriving DecidableEq, Repr

/-- A response: `(status, none)` or `(OK, some digest)` (R65). -/
structure Response where
  status : Status
  digest : Option Payload
  deriving DecidableEq, Repr

/-- What the host does at one command boundary (R168's table). -/
inductive HostInput where
  /-- "nothing": no command word, no reset. -/
  | idle
  /-- `rst` while the engine is idle (R160). -/
  | rst
  /-- A word presented while `cmd_ready = 1`, run to its response (R66). -/
  | command (w : CmdWord)
  /-- A word accepted, then `rst` before its response: "Reset abandons a command in progress without a response"
  (R160, U17). -/
  | commandThenRst (w : CmdWord)
  deriving DecidableEq, Repr

/-- The cells of `BUF` written since the last reset, as (offset, byte) pairs with offsets strictly rising and below 64
(`Memory.wf`, Machine/Ops.lean). An unlisted offset has NO value written since the reset. -/
abbrev Memory := List Host.Cell

/-- Everything the spec gives the machine. -/
structure State where
  /-- `H[0..4]` (R10). -/
  h : Chain
  /-- `BUF[0..63]` (R13, R40). -/
  buf : Memory
  /-- `FILL` (R14), 7 bits, of which only the values 0..64 occur (U12). -/
  fill : Fin 65
  /-- `LEN` (R15). -/
  len : BitVec 64
  /-- `ST` (R16). -/
  st : Lifecycle
  /-- The response port (R66): the response of the step just made; `none` is `rsp_valid = 0`. -/
  rsp : Option Response
  /-- The model's own: what the host will do at the coming command boundaries, first one first (R168). -/
  inbox : List HostInput
  /-- The model's own: how many resets there have been; selects the free content of `BUF` (Config.bufAtReset). -/
  era : Nat
  deriving DecidableEq, Repr

/-- Reasons a step stops with a fault. -/
inductive Fault where
  /-- An access to an offset of `BUF` that does not exist: a one-byte write at `FILL` = 64. R8: "The address argument
  ... is a byte offset 0 to 63 into the block buffer; there is no other memory." Raised by `FEED`, `FINALIZE` and
  `DIGEST` in a state no run reaches (R45); safe (log entry 3). -/
  | bufOffsetOutside
  deriving DecidableEq, Repr

/-- Reasons a step is refused. -/
inductive Refusal where
  /-- The command has no meaning in the model yet. Raised by none: every command has its meaning; safe. -/
  | notModelled (mnemonic : String)
  deriving DecidableEq, Repr

/-- What one command answers. -/
abbrev Result := Host.Outcome State Fault Refusal

/-- `ST`'s encoding (R16, D8). -/
def Lifecycle.code : Lifecycle → BitVec 2
  | .accepting => 0
  | .overflowed => 1
  | .finalized => 2

/-- The value of `rsp_status` (R64). -/
def Status.code : Status → BitVec 3
  | .ok => 0
  | .invalidState => 1
  | .overflowed => 2
  | .notFinalized => 3
  | .illegalCommand => 4

def State.setH (s : State) (v : Chain) : State := { s with h := v }
def State.setBuf (s : State) (v : Memory) : State := { s with buf := v }
def State.setFill (s : State) (v : Fin 65) : State := { s with fill := v }
def State.setLen (s : State) (v : BitVec 64) : State := { s with len := v }
def State.setSt (s : State) (v : Lifecycle) : State := { s with st := v }
def State.setRsp (s : State) (v : Option Response) : State := { s with rsp := v }
def State.setInbox (s : State) (v : List HostInput) : State := { s with inbox := v }

/-- The machine right after reset (R24, R160): `H = IV`, `FILL = 0`, `LEN = 0`, `ST = Accepting`, no cell of `BUF`
written, `rsp_valid = 0`; the model's own fields: nothing from the host yet, reset number 0 (log entries 1, 2). -/
def State.reset : State :=
  { h := iv, buf := [], fill := 0, len := 0, st := .accepting, rsp := none, inbox := [], era := 0 }

end Sys2Proof.Machine
end

