-- ==== Sys2Proof/Machine/Operands.lean ====
section
/-!
DEFINITION. The forms a value takes when it crosses a width: bytes and words (R8, R41 to R43), the digest payload and
its bytes (R65, R121), its hex string (R122). Every one is big-endian and none can be switched (R41). The one operand
of a command, the byte of `FEED`, is bits 7:0 of the word "used as is" (R62): `dField` of Decode.lean.
-/

namespace Sys2Proof.Machine

/-- `be32` (R8): `b0*2^24 + b1*2^16 + b2*2^8 + b3`. -/
def be32 (b0 b1 b2 b3 : Byte) : Word := b0 ++ b1 ++ b2 ++ b3

/-- `be64_byte(v, i)` (R8): `v[63-8i : 56-8i]`, byte 0 the most significant. -/
def be64Byte (v : BitVec 64) (i : Nat) : Byte := v.extractLsb' (56 - 8 * i) 8

/-- The 8 bytes of `v`, most significant first: the length footer (R43). -/
def be64 (v : BitVec 64) : List Byte := (List.range 8).map (be64Byte v)

/-- `LEN_HI = LEN[63:32]` (R15): a name for half of `LEN`, not separate state. -/
def lenHi (v : BitVec 64) : Word := v.extractLsb' 32 32

/-- `LEN_LO = LEN[31:0]` (R15). -/
def lenLo (v : BitVec 64) : Word := v.extractLsb' 0 32

/-- The payload `H[0] ‖ H[1] ‖ H[2] ‖ H[3] ‖ H[4]`, `H[0]` in bits 159:128 (R65). -/
def payload (h : Chain) : Payload := h.h0 ++ h.h1 ++ h.h2 ++ h.h3 ++ h.h4

/-- Byte `k` = 0..19 of the digest, the most significant first (R121). -/
def payloadByte (d : Payload) (k : Nat) : Byte := d.extractLsb' (152 - 8 * k) 8

/-- `digit(v)` (R122): the character of `0123456789abcdef` at position `v`. -/
def hexDigit (v : BitVec 4) : Char :=
  ['0', '1', '2', '3', '4', '5', '6', '7', '8', '9', 'a', 'b', 'c', 'd', 'e', 'f'].getD v.toNat '0'

/-- `hex8(w)` (R122): `digit(w[31:28])` ... `digit(w[3:0])`, leading zeros kept. -/
def hex8 (w : Word) : List Char := (List.range 8).map fun i => hexDigit (w.extractLsb' (28 - 4 * i) 4)

/-- Word `i` = 0..4 of a payload, `H[0]` first (R65). -/
def payloadWord (d : Payload) (i : Nat) : Word := d.extractLsb' (128 - 32 * i) 32

/-- `hex40` (R122), "a pure function of the payload": the 40 characters, no prefix, separator or terminator. -/
def hex40 (d : Payload) : List Char := (List.range 5).flatMap fun i => hex8 (payloadWord d i)

end Sys2Proof.Machine
end

