-- ==== Sys2Proof/Machine/Compress.lean ====
section
/-!
DEFINITION. The compression function of 43_compress.md as a pure function of five words and 64 bytes (R110): the
arithmetic (R100 to R104), the schedule (R105, R106), the rounds (R107, R108), the accumulation (R109).
-/

namespace Sys2Proof.Machine

/-- `add32` of any number of words (R100): the exact sum, reduced modulo 2^32. -/
def add32 (xs : List Word) : Word := BitVec.ofNat 32 (xs.map BitVec.toNat).sum

/-- `rotl32(x, n)` for `1 <= n <= 31` (R8, R101). -/
def rotl32 (x : Word) (n : Nat) : Word := (x <<< n) ||| (x >>> (32 - n))

/-- `f_s(B, C, D)` of stage `s` = 0..3 (R103). -/
def stageFn (s : Nat) (b c d : Word) : Word :=
  match s with
  | 0 => (b &&& c) ||| (~~~b &&& d)
  | 1 => b ^^^ c ^^^ d
  | 2 => (b &&& c) ||| (b &&& d) ||| (c &&& d)
  | _ => b ^^^ c ^^^ d

/-- The stage of round `t`: `s = floor(t / 20)` (R104). -/
def stage (t : Nat) : Nat := t / 20

/-- A block: 64 bytes, offset 0 first. Offsets past its end are never used; `getD`'s default stands for them. -/
abbrev Block := List Byte

/-- `W[i]` for `i` = 0..15 (R105, R42). -/
def blockWord (b : Block) (i : Nat) : Word :=
  be32 (b.getD (4 * i) 0) (b.getD (4 * i + 1) 0) (b.getD (4 * i + 2) 0) (b.getD (4 * i + 3) 0)

/-- The next schedule word from the ones before it, LAST ONE FIRST: `W[t-3]` is at index 2, `W[t-8]` at 7, `W[t-14]` at
13, `W[t-16]` at 15 (R106). -/
def nextScheduleWord (recent : List Word) : Word :=
  rotl32 (recent.getD 2 0 ^^^ recent.getD 7 0 ^^^ recent.getD 13 0 ^^^ recent.getD 15 0) 1

/-- `n` steps of the schedule expansion (R106) on the words so far, last one first. -/
def expandSchedule : Nat → List Word → List Word
  | 0, recent => recent
  | n + 1, recent => expandSchedule n (nextScheduleWord recent :: recent)

/-- The message schedule `W[0..79]` of a block (R105, R106): 16 words loaded, 64 expanded. -/
def schedule (b : Block) : List Word :=
  (expandSchedule 64 ((List.range 16).map (blockWord b)).reverse).reverse

/-- The working variables `A`..`E` (R18). -/
structure Working where
  a : Word
  b : Word
  c : Word
  d : Word
  e : Word
  deriving DecidableEq, Repr

/-- R107: the working variables before round 0. -/
def loadWorking (h : Chain) : Working := { a := h.h0, b := h.h1, c := h.h2, d := h.h3, e := h.h4 }

/-- `TEMP` of round `t` with schedule word `w` (R108). -/
def roundTemp (t : Nat) (w : Word) (v : Working) : Word :=
  add32 [rotl32 v.a 5, stageFn (stage t) v.b v.c v.d, v.e, w, roundConstant (stage t)]

/-- One round (R108), as the simultaneous assignment. -/
def round (t : Nat) (w : Word) (v : Working) : Working :=
  { a := roundTemp t w v, b := v.a, c := rotl32 v.b 30, d := v.c, e := v.d }

/-- The rounds `t`, `t + 1`, ... with the schedule words given, in increasing order (R110). -/
def runRounds : Nat → List Word → Working → Working
  | _, [], v => v
  | t, w :: ws, v => runRounds (t + 1) ws (round t w v)

/-- R109: add the working variables into the chaining value. -/
def accumulate (h : Chain) (v : Working) : Chain :=
  { h0 := add32 [h.h0, v.a], h1 := add32 [h.h1, v.b], h2 := add32 [h.h2, v.c], h3 := add32 [h.h3, v.d],
    h4 := add32 [h.h4, v.e] }

/-- `compress : (5 words) x (64 bytes) -> (5 words)` (R110). -/
def compress (h : Chain) (b : Block) : Chain :=
  accumulate h (runRounds 0 (schedule b) (loadWorking h))

end Sys2Proof.Machine
end

