-- ==== Sys2Proof/Machine/Flags.lean ====
section
/-!
DEFINITION. The checks a command passes before it writes anything (R142). `ST` is the only flag of the hardware and
there are no condition codes (R16); the only other test is `LEN`'s (R82).
-/

namespace Sys2Proof.Machine

/-- R142 step 2 for `FEED` and `FINALIZE`: the status raised, if any (R83, R94, C2). -/
def inputGuard : Lifecycle → Option Status
  | .accepting => none
  | .overflowed => some .overflowed
  | .finalized => some .invalidState

/-- R142 step 2 for `RENDER` (R120, D13). -/
def renderGuard : Lifecycle → Option Status
  | .accepting => some .notFinalized
  | .overflowed => some .notFinalized
  | .finalized => none

/-- R142 step 2 for `DIGEST` (R131). -/
def digestGuard : Lifecycle → Option Status
  | .accepting => none
  | .overflowed => some .overflowed
  | .finalized => none

/-- R82, R84: `LEN + 8`, computed exactly, does not fit 64 bits. -/
def lenWouldOverflow (len : BitVec 64) : Bool := decide (2 ^ 64 - 1 < len.toNat + 8)

end Sys2Proof.Machine
end

