-- ==== Sys2Proof/Machine/Ops.lean ====
section
/-!
DEFINITION. The named operations over `BUF`, the registers and the ports that the commands share: `MemRead`,
`MemWrite`, `COMPRESS()`, `raise`, `respond` (R8), the padding of R90, reset (R160).
-/

namespace Sys2Proof.Machine

/-- The byte written at offset `x` since the last reset, or none. -/
def Memory.read : Memory → Nat → Option Byte
  | [], _ => none
  | (a, v) :: m, x => if a = x then some v else Memory.read m x

/-- `BUF[x] <- v`, in the canonical form. -/
def Memory.write : Memory → Nat → Byte → Memory
  | [], x, v => [(x, v)]
  | (a, w) :: m, x, v =>
    if x < a then (x, v) :: (a, w) :: m
    else if x = a then (x, v) :: m
    else (a, w) :: Memory.write m x v

/-- The canonical form: offsets strictly rising, each a cell of `BUF` (R40: 0..63). An unlisted offset reads as no
value, so no entry can equal what an unlisted offset reads as. -/
abbrev Memory.wf (m : Memory) : Prop :=
  m.Pairwise (fun c d => c.1 < d.1) ∧ ∀ c ∈ m, c.1 < 64

/-- `MemRead(a, 1)`: `BUF[a]`. A cell not written since the last reset holds its free reset content (R24). -/
def bufByte (s : State) (a : Nat) : Byte := (s.buf.read a).getD (Config.bufAtReset s.era a)

/-- `MemRead(a, 4)` (R42). -/
def bufWord (s : State) (a : Nat) : Word :=
  be32 (bufByte s a) (bufByte s (a + 1)) (bufByte s (a + 2)) (bufByte s (a + 3))

/-- All of `BUF`, offset 0 first: what `COMPRESS` reads (R13). -/
def bufBlock (s : State) : Block := (List.range 64).map (bufByte s)

/-- Go on from a next state; a fault or a refusal ends the command. -/
def andThen (r : Result) (k : State → Result) : Result :=
  match r with
  | .next s => k s
  | .fault f => .fault f
  | .refused f => .refused f

/-- `MemWrite(a, 1, v)` (R44), `0 <= a <= 63`. -/
def memWrite1 (a : Nat) (v : Byte) (s : State) : Result :=
  if a < 64 then .next (s.setBuf (s.buf.write a v)) else .fault .bufOffsetOutside

/-- Write bytes at `a`, `a + 1`, ... in order. -/
def memWriteBytes : Nat → List Byte → State → Result
  | _, [], s => .next s
  | a, v :: vs, s => andThen (memWrite1 a v s) (memWriteBytes (a + 1) vs)

/-- `MemWrite(a, 8, v)` (R43): `BUF[a+i] <- be64_byte(v, i)` for `i` = 0..7. -/
def memWrite8 (a : Nat) (v : BitVec 64) (s : State) : Result := memWriteBytes a (be64 v) s

/-- `FILL <- FILL + 1`, exact and at most 64 (R84). A `FILL` of 64 is not incremented by any rule (R14); it stays. -/
def incFill (s : State) : State :=
  if h : s.fill.val < 64 then s.setFill ⟨s.fill.val + 1, by omega⟩ else s

/-- `MemWrite(FILL, 1, v); FILL <- FILL + 1`: the pair of steps by which R80 and R90 append one byte. -/
def appendByte (v : Byte) (s : State) : Result :=
  andThen (memWrite1 s.fill.val v s) fun s => .next (incFill s)

/-- `while FILL < n do MemWrite(FILL, 1, 0x00); FILL <- FILL + 1` (R90). `fuel` bounds the turns: each raises `FILL`, so
`n` are enough (R166). -/
def zeroFill (n : Nat) : Nat → State → Result
  | 0, s => .next s
  | fuel + 1, s => if s.fill.val < n then andThen (appendByte 0x00 s) (zeroFill n fuel) else .next s

/-- `COMPRESS()` (R110): `H <- compress(H, BUF)`; nothing else changes (R111). -/
def compressBuf (s : State) : State := s.setH (compress s.h (bufBlock s))

/-- `COMPRESS(); FILL <- 0` as every caller does it (R80, R90, R111). -/
def compressAndRewind (s : State) : State := (compressBuf s).setFill 0

/-- `respond OK` or `respond OK, d` (R8): the command ends, its response on the port (R66). -/
def respondOk (d : Option Payload) (s : State) : Result := .next (s.setRsp (some { status := .ok, digest := d }))

/-- TAKING AN EXCEPTION: `raise E` (R8, R144). The command ends with status `E` and no payload; nothing is saved, no mode
changes, control goes nowhere, and the next command is accepted as after `OK` (R145). -/
def raise (e : Status) (s : State) : Result := .next (s.setRsp (some { status := e, digest := none }))

/-- Run `body` unless the lifecycle check raises (R142 step 2). -/
def guarded (g : Option Status) (s : State) (body : Result) : Result :=
  match g with
  | some e => raise e s
  | none => body

/-- R90's inner `if`: when no room is left for the length field, fill the block up, compress it, begin another. -/
def spillBlock (s : State) : Result :=
  if 56 < s.fill.val then andThen (zeroFill 64 64 s) fun s => .next (compressAndRewind s) else .next s

/-- The Accepting path of `FINALIZE` (R90) without its response: shared by `FINALIZE` and `DIGEST` (R131). -/
def closeSession (s : State) : Result :=
  andThen (appendByte 0x80 s) fun s1 =>
  andThen (spillBlock s1) fun s2 =>
  andThen (zeroFill 56 56 s2) fun s3 =>
  andThen (memWrite8 56 s.len s3) fun s4 =>
  .next ((compressAndRewind s4).setSt .finalized)

/-- The state `INIT` and reset make of the registers (R24, R130): `H <- IV; FILL <- 0; LEN <- 0; ST <- Accepting`. -/
def freshSession (s : State) : State := (((s.setH iv).setFill 0).setLen 0).setSt .accepting

/-- Reset (R160, R24): a fresh session, `BUF` unspecified (a new free content), `rsp_valid = 0`. -/
def applyRst (s : State) : State :=
  { freshSession s with buf := [], rsp := none, era := s.era + 1 }

/-- A boundary at which the host does nothing (R168): "the state holds"; a response stands for one cycle only (R66). -/
def noInput (s : State) : State := s.setRsp none

/-- `cmd_ready` at a command boundary (R66): "after the response `cmd_ready` returns to 1" (log entry 5). -/
def cmdReady (_ : State) : Bool := true

/-- `rsp_valid` (R66). -/
def rspValid (s : State) : Bool := s.rsp.isSome

/-- `rsp_status` while `rsp_valid = 1` (R64); the spec gives the pins no value otherwise. -/
def rspStatusPins (s : State) : Option (BitVec 3) := s.rsp.map fun r => r.status.code

/-- `rsp_digest` while `rsp_valid = 1` (R65): the payload, or "all zeros" where the response carries none; the spec
gives the pins no value otherwise. -/
def rspDigestPins (s : State) : Option Payload := s.rsp.map fun r => r.digest.getD 0

end Sys2Proof.Machine
end

