-- ==== Sys2Proof/Machine/Feed.lean ====
section
/-!
DEFINITION. The Buffer Accumulator (41_feed.md): `FEED`.
-/

namespace Sys2Proof.Machine

/-- R80's `if FILL = 64`: compress a full block. -/
def compressIfFull (s : State) : State := if s.fill.val = 64 then compressAndRewind s else s

/-- `FEED b` (R80). The counter is tested before anything is written (R82, C6, D11). -/
def execFeed (b : Byte) (s : State) : Result :=
  guarded (inputGuard s.st) s <|
    if lenWouldOverflow s.len then raise .overflowed (s.setSt .overflowed)
    else
      andThen (appendByte b s) fun s1 =>
      respondOk none (compressIfFull (s1.setLen (s1.len + 8)))

end Sys2Proof.Machine
end

