-- ==== Sys2Proof/Machine/Finalize.lean ====
section
/-!
DEFINITION. The Padder (42_finalize.md): `FINALIZE`.
-/

namespace Sys2Proof.Machine

/-- `FINALIZE` (R90, R94). -/
def execFinalize (s : State) : Result :=
  guarded (inputGuard s.st) s <| andThen (closeSession s) fun s1 => respondOk none s1

end Sys2Proof.Machine
end

