-- ==== Sys2Proof/Machine/Render.lean ====
section
/-!
DEFINITION. The Digest Formatter (44_render.md): `RENDER`. Its hex string is `hex40` of Machine/Operands.lean.
-/

namespace Sys2Proof.Machine

/-- `RENDER` (R120): no state is written but the response port. -/
def execRender (s : State) : Result :=
  guarded (renderGuard s.st) s <| respondOk (some (payload s.h)) s

end Sys2Proof.Machine
end

