-- ==== Sys2Proof/Machine/Session.lean ====
section
/-!
DEFINITION. The session commands (45_session.md): `INIT` and `DIGEST`.
-/

namespace Sys2Proof.Machine

/-- `INIT` (R130): accepted in every `ST`; `BUF` is not written (D21). -/
def execInit (s : State) : Result := respondOk none (freshSession s)

/-- R131's `if ST = Accepting then` the Accepting path of `FINALIZE`. -/
def closeIfAccepting (s : State) : Result :=
  match s.st with
  | .accepting => closeSession s
  | .overflowed => .next s
  | .finalized => .next s

/-- `DIGEST` (R131). -/
def execDigest (s : State) : Result :=
  guarded (digestGuard s.st) s <|
    andThen (closeIfAccepting s) fun s1 => respondOk (some (payload s1.h)) s1

end Sys2Proof.Machine
end

