-- ==== Sys2Proof/Machine/Dispatch.lean ====
section
/-!
DEFINITION. The command's arm: one constructor, one meaning.
-/

namespace Sys2Proof.Machine

def exec (i : Instr) (s : State) : Host.Outcome State Fault Refusal :=
  match i with
  | .init => Sys2Proof.Machine.execInit s
  | .feed b => Sys2Proof.Machine.execFeed b s
  | .finalize => Sys2Proof.Machine.execFinalize s
  | .render => Sys2Proof.Machine.execRender s
  | .digest => Sys2Proof.Machine.execDigest s

end Sys2Proof.Machine
end

