-- ==== Sys2Proof/Machine/Step.lean ====
section
/-!
DEFINITION. One step: the engine takes what the host does at this command boundary and acts on it to the end (R9, R48,
R168). There is no program counter and no fetch (R17): the next command is the next input of the host.
-/

namespace Sys2Proof.Machine

/-- One step of the engine (R168). A word that decodes runs its command; one that does not is answered
`IllegalCommand` and changes nothing (R143, R142 step 1). -/
def step (s : State) : Host.Outcome State Fault Refusal :=
  match s.inbox with
  | [] => .next (noInput s)
  | .idle :: rest => .next (noInput (s.setInbox rest))
  | .rst :: rest => .next (applyRst (s.setInbox rest))
  | .commandThenRst _ :: rest => .next (applyRst (s.setInbox rest))
  | .command w :: rest =>
    match decode w with
    | .command i => exec i (s.setInbox rest)
    | .illegal _ => raise .illegalCommand (s.setInbox rest)

/-- `s` with the command word `w` as the host's next input, before whatever else the host will do (log entry 4). -/
def State.withFetchWord (s : State) (_nbits w : Nat) : State :=
  s.setInbox (.command (BitVec.ofNat 16 w) :: s.inbox)

end Sys2Proof.Machine
end

