-- ==== Sys2Proof/Machine/Rolling.lean ====
section
/-!
DEFINITION. The compression of an implementation that keeps 16 schedule words (R112): "may compute `W[t]` on the fly in a
16-word circular buffer" and "interleave expansion with the rounds". Only `compress` is the machine's; this one is a
second design, for the statement that the two give one value.
-/

namespace Sys2Proof.Machine

/-- `W[t+16]` from the window `W[t], ..., W[t+15]`, oldest first (R106 at `t + 16`). -/
def windowNext (win : List Word) : Word :=
  rotl32 (win.getD 13 0 ^^^ win.getD 8 0 ^^^ win.getD 2 0 ^^^ win.getD 0 0) 1

/-- `n` rounds from round `t` on, with the window `W[t], ..., W[t+15]`. -/
def rollRounds : Nat → Nat → List Word → Working → Working
  | 0, _, _, v => v
  | n + 1, t, win, v => rollRounds n (t + 1) (win.tail ++ [windowNext win]) (round t (win.getD 0 0) v)

/-- The compression with a 16-word window (R112). -/
def compressRolling (h : Chain) (b : Block) : Chain :=
  accumulate h (rollRounds 80 0 ((List.range 16).map (blockWord b)) (loadWorking h))

end Sys2Proof.Machine
end

