-- ==== Sys2Proof/Machine/Assembler.lean ====
section
/-!
DEFINITION. The spec's notation for command sequences: the pseudo-commands `FEEDS` and `HASH` (R68, R85, R133) and the
line syntax (R67). It is the host's side: the engine sees words only. Where R67 and R68 leave a form of a line open,
the reader's answer is the model's DESIGN CHOICE, listed in log entry 8; the engine sees words only.
-/

namespace Sys2Proof

/-- `FEEDS b0, ..., b(n-1)` (R85): nothing at all when `n = 0`. -/
def feeds (bs : List Byte) : List Instr := bs.map .feed

/-- `HASH b0, ..., b(n-1)` (R133): `INIT`, then `FEEDS` of the bytes, then `DIGEST`. -/
def hash (bs : List Byte) : List Instr := .init :: feeds bs ++ [.digest]

/-- The words of a command sequence, as the host presents them. -/
def assemble (is : List Instr) : List CmdWord := is.map encode

/-- A character's byte, if it is ASCII (R68). -/
def asciiByte (c : Char) : Option Byte := if c.toNat < 128 then some (BitVec.ofNat 8 c.toNat) else none

/-- A digit's value below `base`, in either case of letter (DESIGN CHOICE, log entry 8). -/
def digitValue (base : Nat) (c : Char) : Option Nat :=
  let v := if c.isDigit then c.toNat - 48 else if c.isLower then c.toNat - 87 else if c.isUpper then c.toNat - 55 else 99
  if v < base then some v else none

/-- The number written by the digits, none if one is no digit or there is none. -/
def number (base : Nat) (cs : List Char) : Option Nat :=
  if cs.isEmpty then none
  else cs.foldl (fun acc c => acc.bind fun n => (digitValue base c).map fun d => n * base + d) (some 0)

/-- A byte written `0xNN` or decimal `0..255` (R67). The spec does not say whether a decimal may have leading zeros: any
number of them is accepted (`007`, `00255`), DESIGN CHOICE (log entry 8). -/
def byteNumber : List Char → Option Byte
  | ['0', 'x', a, b] => (number 16 [a, b]).map (BitVec.ofNat 8)
  | cs => (number 10 cs).bind fun n => if n < 256 then some (BitVec.ofNat 8 n) else none

/-- One operand from the front of a line, and what is left (R67). -/
def byteOperand : List Char → Option (Byte × List Char)
  | '\'' :: c :: '\'' :: rest => (asciiByte c).map fun b => (b, rest)
  | cs =>
    let tok := cs.takeWhile Char.isAlphanum
    (byteNumber tok).map fun b => (b, cs.drop tok.length)

/-- Spaces, and no other blank, may stand between the parts of a line, in any number (DESIGN CHOICE, log entry 8). -/
def skipSpaces (cs : List Char) : List Char := cs.dropWhile (· = ' ')

/-- `b0, b1, ..., b(n-1)` to the end of the line (R68). -/
def byteOperands : Nat → List Char → Option (List Byte)
  | 0, _ => none
  | fuel + 1, cs =>
    (byteOperand (skipSpaces cs)).bind fun (b, rest) =>
      match skipSpaces rest with
      | [] => some [b]
      | ',' :: rest => (byteOperands fuel rest).map (b :: ·)
      | _ => none

/-- The operand of a pseudo-command: `"text"`, which "stands for its bytes in ASCII, with no terminator", or a list of
bytes, or nothing (R68; the forms the spec leaves open are DESIGN CHOICE, log entry 8). -/
def bytesOperand (cs : List Char) : Option (List Byte) :=
  match skipSpaces cs with
  | [] => some []
  | '"' :: rest =>
    let text := rest.takeWhile (· ≠ '"')
    if skipSpaces (rest.drop text.length) = ['"'] then text.mapM asciiByte else none
  | cs => byteOperands cs.length cs

/-- R67: "A `;` starts a comment"; not one inside a quoted character or text (DESIGN CHOICE, log entry 8). -/
def stripComment : Bool → List Char → List Char
  | _, [] => []
  | false, '\'' :: c :: '\'' :: rest => '\'' :: c :: '\'' :: stripComment false rest
  | inText, '"' :: rest => '"' :: stripComment (!inText) rest
  | false, ';' :: _ => []
  | inText, c :: rest => c :: stripComment inText rest

/-- One line of R67: the commands it stands for, or no meaning. An empty line stands for none (DESIGN CHOICE, log
entry 8). -/
def assembleLine (line : List Char) : Option (List Instr) :=
  let cs := (skipSpaces (skipSpaces (stripComment false line)).reverse).reverse
  let name := cs.takeWhile Char.isUpper
  let args := cs.drop name.length
  if cs = [] then some []
  else if name = "INIT".toList ∧ args = [] then some [.init]
  else if name = "FINALIZE".toList ∧ args = [] then some [.finalize]
  else if name = "RENDER".toList ∧ args = [] then some [.render]
  else if name = "DIGEST".toList ∧ args = [] then some [.digest]
  else if name = "FEED".toList then
    match byteOperand (skipSpaces args) with
    | some (b, []) => some [.feed b]
    | _ => none
  else if name = "FEEDS".toList then (bytesOperand args).map feeds
  else if name = "HASH".toList then (bytesOperand args).map hash
  else none

end Sys2Proof
end

