-- ==== Sys2Proof/Machine/Run.lean ====
section
/-!
DEFINITION. Runs as the host sees them (R168): "a finite list of command words", "its observation the list of responses".
-/

namespace Sys2Proof.Machine

/-- Commands run one after another. -/
def runInstrs : List Instr → State → Result
  | [], s => .next s
  | i :: is, s => andThen (exec i s) (runInstrs is)

/-- The responses to a list of command words, each presented when the one before has been answered (R66, R162). -/
def responses : List CmdWord → State → List Response
  | [], _ => []
  | w :: ws, s =>
    match step (s.setInbox [.command w]) with
    | .next t => t.rsp.toList ++ responses ws t
    | .fault _ => []
    | .refused _ => []

/-- `FEEDS`'s result (R85): `OK` if every `FEED` answered `OK`, otherwise "the status of the first that did not". -/
def feedsStatus (rs : List Response) : Status := ((rs.map (·.status)).find? (· ≠ .ok)).getD .ok

end Sys2Proof.Machine
end

