-- ==== Sys2Proof/Machine/Sha1.lean ====
section
/-!
DEFINITION. What a whole session computes, as a function of the message alone (R22): padding and chaining. The machine
does not call it; statements hold the machine against it.
-/

namespace Sys2Proof.Machine

/-- The least `k` with `(n + 1 + k + 8) mod 64 = 0` (R22). -/
def padZeros (n : Nat) : Nat := (64 - (n + 9) % 64) % 64

/-- The padded message `P = m ‖ 0x80 ‖ (k bytes 0x00) ‖ be64(8n)` (R22). -/
def padded (m : List Byte) : List Byte :=
  m ++ [0x80] ++ List.replicate (padZeros m.length) 0x00 ++ be64 (BitVec.ofNat 64 (8 * m.length))

/-- `H_{j+1} = compress(H_j, P[64j .. 64j+63])` over the first `q` blocks of `p` (R22). -/
def chainBlocks : Nat → Chain → List Byte → Chain
  | 0, h, _ => h
  | q + 1, h, p => chainBlocks q (compress h (p.take 64)) (p.drop 64)

/-- The SHA-1 state `H_q` after the last padded block, from `H_0 = IV` (R22). -/
def sha1 (m : List Byte) : Chain := chainBlocks ((padded m).length / 64) iv (padded m)

end Sys2Proof.Machine
end

