-- ==== Sys2Proof/Safety.lean ====
section
/-!
DEFINITION. The terms statements are made in: the invariant of R21, the three descriptions of a session in progress, a
finished one and an overflowed one (R21 items 3 to 5), agreement of two machines in all that can be observed (R51, R134).
-/

namespace Sys2Proof.Machine

/-- The pending bytes `BUF[0 .. FILL-1]` (R13, R92). -/
def pending (s : State) : List Byte := (List.range s.fill.val).map (bufByte s)

/-- R92's single block for pending bytes `m` (at most 55) and bit length `len`. -/
def onlyBlock (m : List Byte) (len : BitVec 64) : Block :=
  m ++ 0x80 :: List.replicate (55 - m.length) 0x00 ++ be64 len

/-- R92's first block for pending bytes `m` (56 to 63). -/
def spillFirst (m : List Byte) : Block := m ++ 0x80 :: List.replicate (63 - m.length) 0x00

/-- R92's second block. -/
def spillSecond (len : BitVec 64) : Block := List.replicate 56 0x00 ++ be64 len

/-- The working variables after the first `k` rounds of a compression (R107, R108). -/
def afterRounds (h : Chain) (b : Block) (k : Nat) : Working := runRounds 0 ((schedule b).take k) (loadWorking h)

/-- R21, as far as it speaks of the registers without the history (which `SessionInv` has): items 1 and 2, the `FILL` clauses of items 3 to 5, the
canonical form of `BUF`, R51's cells that have been written, and R65 on the response port. -/
structure EngineInv (s : State) : Prop where
  bufCanonical : s.buf.wf
  fillBelow64 : s.fill.val < 64
  lenWholeBytes : s.len.toNat % 8 = 0
  acceptingFill : s.st = .accepting → s.fill.val = s.len.toNat / 8 % 64
  acceptingWritten : s.st = .accepting → ∀ a, a < s.fill.val → s.buf.read a ≠ none
  finalizedFill : s.st = .finalized → s.fill.val = 0
  finalizedWritten : s.st = .finalized → ∀ a, a < 64 → s.buf.read a ≠ none
  overflowedLen : s.st = .overflowed → s.len.toNat = 2 ^ 64 - 8 ∧ s.fill.val = 63
  digestOnlyWhenFinalized : ∀ r d, s.rsp = some r → r.digest = some d →
    r.status = .ok ∧ s.st = .finalized ∧ d = payload s.h

/-- R21 item 3: an accepting session that has been fed the bytes `m`. -/
structure Fed (m : List Byte) (s : State) : Prop where
  st : s.st = .accepting
  len : s.len.toNat = 8 * m.length
  fill : s.fill.val = m.length % 64
  h : s.h = chainBlocks (m.length / 64) iv m
  tail : pending s = m.drop (64 * (m.length / 64))

/-- R21 item 4: a finalized session whose message was `m`. -/
structure Closed (m : List Byte) (s : State) : Prop where
  st : s.st = .finalized
  len : s.len.toNat = 8 * m.length
  fill : s.fill.val = 0
  h : s.h = sha1 m
  lastBlock : bufBlock s = (padded m).drop ((padded m).length - 64)

/-- R21 item 5: an overflowed session that has accepted the bytes `m`; `H` and the pending bytes are as item 3 says. -/
structure Overrun (m : List Byte) (s : State) : Prop where
  st : s.st = .overflowed
  bytes : m.length = 2 ^ 61 - 1
  len : s.len.toNat = 2 ^ 64 - 8
  fill : s.fill.val = 63
  h : s.h = chainBlocks (m.length / 64) iv m
  tail : pending s = m.drop (64 * (m.length / 64))

/-- R21 items 3 to 5 with the history of the session: some bytes `m` have been accepted, and the registers and `BUF` are
what those bytes make of them. -/
def SessionInv (s : State) : Prop :=
  ∃ m : List Byte, m.length ≤ 2 ^ 61 - 1 ∧ (Fed m s ∨ Overrun m s ∨ Closed m s)

/-- Two machines that agree in everything a response can depend on: the registers, and while accepting the cells of `BUF`
below `FILL` (R51: no other cell is read before it is written). -/
structure Agree (s t : State) : Prop where
  h : s.h = t.h
  fill : s.fill = t.fill
  len : s.len = t.len
  st : s.st = t.st
  below : s.st = .accepting → pending s = pending t

/-- One cell of R23's table, with R141: the status, whether a payload is given, the next `ST`. `full` says
`LEN = 2^64 - 8`. -/
def lifecycleCell (st : Lifecycle) (full : Bool) : Instr → Status × Bool × Lifecycle
  | .init => (.ok, false, .accepting)
  | .feed _ =>
    match st with
    | .accepting => if full then (.overflowed, false, .overflowed) else (.ok, false, .accepting)
    | .overflowed => (.overflowed, false, .overflowed)
    | .finalized => (.invalidState, false, .finalized)
  | .finalize =>
    match st with
    | .accepting => (.ok, false, .finalized)
    | .overflowed => (.overflowed, false, .overflowed)
    | .finalized => (.invalidState, false, .finalized)
  | .render =>
    match st with
    | .accepting => (.notFinalized, false, .accepting)
    | .overflowed => (.notFinalized, false, .overflowed)
    | .finalized => (.ok, true, .finalized)
  | .digest =>
    match st with
    | .accepting => (.ok, true, .finalized)
    | .overflowed => (.overflowed, false, .overflowed)
    | .finalized => (.ok, true, .finalized)

/-- The cells `FINALIZE` and `DIGEST` store to (R90, R131): from `FILL` to the end of the block while accepting, and the
whole of `BUF` when a second block is needed. -/
def closingStores (s : State) (a : Nat) : Prop :=
  s.st = .accepting ∧ a < 64 ∧ (s.fill.val ≤ a ∨ 55 < s.fill.val)

/-- `t` differs from `s` at most in the response port and the host's inputs: the registers and `BUF` are the same. -/
def SameMachine (s t : State) : Prop := t = { s with rsp := t.rsp, inbox := t.inbox }

end Sys2Proof.Machine
end

