-- ==== Sys2Proof/Certificates/Slice0/Obligations.lean ====
section
/-!
DEFINITION. The statements for the provers, in the order of the spec: encoding, arithmetic and compression, `BUF`, the five
commands, errors and lifecycle, reset, invariants, whole sessions. A statement of a command's result is an equation
whose right side names every field that changes, so it is its frame as well.
-/

open Sys2Proof Sys2Proof.Machine

/-! ## Encoding -/

/-- R60 to R62: a word decodes to a command exactly when it is that command's encoding; so no bit of an encoding is dropped
and no two words mean one command. -/
def Obligations.DecodeInvertsEncode : Prop :=
  ∀ (w : CmdWord) (i : Instr), decode w = .command i ↔ w = encode i

/-- R61: `w` selects the row whose `(w & mask) = match`, the rows are disjoint, and 260 words decode. -/
def Obligations.OpcodeMapSelectsDecodedRow : Prop :=
  (∀ (w : CmdWord) (i : Instr), decode w = .command i →
    ∃ r ∈ opMap, r.selects w = true ∧ r.mnemonic = i.mnemonic ∧ ∀ r' ∈ opMap, r'.selects w = true → r' = r) ∧
  (∀ (w : CmdWord) (r : OpRow), r ∈ opMap → r.selects w = true → ∃ i, decode w = .command i) ∧
  ((List.range 65536).filter fun n => (decodeTableWord 16 n).isSome).length = 260

/-- R63, R143: exactly the words of R63's three clauses are illegal, and one is answered `IllegalCommand` (status 4), without
payload, in every `ST`, and changes nothing. -/
def Obligations.IllegalWordsAnsweredAndHarmless : Prop :=
  (∀ w : CmdWord, (∃ why, decode w = .illegal why) ↔
    (w.toNat / 4096 = 0 ∨ 6 ≤ w.toNat / 4096 ∨ w.toNat / 256 % 16 ≠ 0 ∨
      (w.toNat / 4096 ∈ [1, 3, 4, 5] ∧ w.toNat % 256 ≠ 0))) ∧
  (∀ (s : State) (w : CmdWord) (rest : List HostInput) (why : Illegal),
    s.inbox = .command w :: rest → decode w = .illegal why →
      step s = .next { s with inbox := rest, rsp := some { status := .illegalCommand, digest := none } }) ∧
  Status.illegalCommand.code = 4 ∧
  (∃ why, decode 0x0000 = .illegal why) ∧ (∃ why, decode 0xFFFF = .illegal why)

/-- Words written out from R61's binary column (and from the decode vectors of 95_test_vectors.md) decode to their
commands. -/
def Obligations.SpecWordsDecode : Prop :=
  decode 0b0001000000000000 = .command .init ∧
  decode 0b0010000001100001 = .command (.feed 0x61) ∧
  decode 0b0010000010000000 = .command (.feed 0x80) ∧
  decode 0b0010000011111111 = .command (.feed 0xff) ∧
  decode 0b0011000000000000 = .command .finalize ∧
  decode 0b0100000000000000 = .command .render ∧
  decode 0b0101000000000000 = .command .digest

/-- R9, R142 step 1: when the host's next input is a word that decodes to `i`, the step is `i`'s execution, the word taken
from the input. -/
def Obligations.StepRunsDecodedCommand : Prop :=
  ∀ (s : State) (w : CmdWord) (rest : List HostInput) (i : Instr),
    s.inbox = .command w :: rest → decode w = .command i → step s = exec i { s with inbox := rest }

/-! ## Arithmetic and the compression function -/

/-- R100: the exact sum modulo 2^32, in any order, reduced at any point; with the rule's example. -/
def Obligations.Add32SumsModulo : Prop :=
  (∀ xs : List Word, (add32 xs).toNat = (xs.map BitVec.toNat).sum % 2 ^ 32) ∧
  (∀ xs ys : List Word, xs.Perm ys → add32 xs = add32 ys) ∧
  (∀ xs ys : List Word, add32 (xs ++ ys) = add32 [add32 xs, add32 ys]) ∧
  add32 [0xE8A4602C, 0x98BADCFE, 0xC3D2E1F0, 0x61626380, 0x5A827999] = 0x0116FC33

/-- R101: the formula of the rule and its bit view: bit `i` becomes bit `(i + n) mod 32`. -/
def Obligations.Rotl32RotatesBits : Prop :=
  ∀ (x : Word) (n : Nat), 1 ≤ n → n ≤ 31 →
    (rotl32 x n).toNat = x.toNat * 2 ^ n % 2 ^ 32 + x.toNat / 2 ^ (32 - n) ∧
    ∀ i, i < 32 → (rotl32 x n).getLsbD ((i + n) % 32) = x.getLsbD i

/-- R103, R104: the truth table of the four stage functions at every bit position, the two equivalent forms, and the stage
of a round. -/
def Obligations.StageFunctionsBitwise : Prop :=
  (∀ (b c d : Word) (i : Nat), i < 32 →
    (stageFn 0 b c d).getLsbD i = (if b.getLsbD i then c.getLsbD i else d.getLsbD i) ∧
    (stageFn 1 b c d).getLsbD i = (b.getLsbD i ^^ c.getLsbD i ^^ d.getLsbD i) ∧
    (stageFn 2 b c d).getLsbD i =
      decide (2 ≤ (b.getLsbD i).toNat + (c.getLsbD i).toNat + (d.getLsbD i).toNat) ∧
    (stageFn 3 b c d).getLsbD i = (b.getLsbD i ^^ c.getLsbD i ^^ d.getLsbD i)) ∧
  (∀ b c d : Word, stageFn 0 b c d = d ^^^ (b &&& (c ^^^ d))) ∧
  (∀ b c d : Word, stageFn 2 b c d = (b &&& c) ^^^ (b &&& d) ^^^ (c &&& d)) ∧
  (∀ t, t < 80 → (stage t = 0 ↔ t ≤ 19) ∧ (stage t = 1 ↔ 20 ≤ t ∧ t ≤ 39) ∧ (stage t = 2 ↔ 40 ≤ t ∧ t ≤ 59) ∧
    (stage t = 3 ↔ 60 ≤ t))

/-- R105, R106: 80 schedule words, the first 16 loaded from the block big-endian, each later one the rotated exclusive-or of
four earlier ones. -/
def Obligations.ScheduleLoadAndExpansion : Prop :=
  ∀ b : Block,
    (schedule b).length = 80 ∧
    (∀ i, i < 16 → ((schedule b).getD i 0).toNat =
      (b.getD (4 * i) 0).toNat * 2 ^ 24 + (b.getD (4 * i + 1) 0).toNat * 2 ^ 16 +
        (b.getD (4 * i + 2) 0).toNat * 2 ^ 8 + (b.getD (4 * i + 3) 0).toNat) ∧
    ∀ t, 16 ≤ t → t < 80 → (schedule b).getD t 0 =
      rotl32 ((schedule b).getD (t - 3) 0 ^^^ (schedule b).getD (t - 8) 0 ^^^ (schedule b).getD (t - 14) 0 ^^^
        (schedule b).getD (t - 16) 0) 1

/-- R107 to R110: the working variables start as `H`, each of the 80 rounds is R108's simultaneous assignment with the
round's schedule word, stage function and constant, and the last ones are added into `H`. -/
def Obligations.CompressRunsEightyRounds : Prop :=
  ∀ (h : Chain) (b : Block),
    afterRounds h b 0 = { a := h.h0, b := h.h1, c := h.h2, d := h.h3, e := h.h4 } ∧
    (∀ t, t < 80 → afterRounds h b (t + 1) =
      { a := add32 [rotl32 (afterRounds h b t).a 5,
          stageFn (t / 20) (afterRounds h b t).b (afterRounds h b t).c (afterRounds h b t).d,
          (afterRounds h b t).e, (schedule b).getD t 0, roundConstant (t / 20)],
        b := (afterRounds h b t).a, c := rotl32 (afterRounds h b t).b 30, d := (afterRounds h b t).c,
        e := (afterRounds h b t).d }) ∧
    compress h b =
      { h0 := add32 [h.h0, (afterRounds h b 80).a], h1 := add32 [h.h1, (afterRounds h b 80).b],
        h2 := add32 [h.h2, (afterRounds h b 80).c], h3 := add32 [h.h3, (afterRounds h b 80).d],
        h4 := add32 [h.h4, (afterRounds h b 80).e] }

/-- R113: after `k` rounds `B`, `C`, `D`, `E` are the `A` of 1, 2, 3 and 4 rounds earlier, the last three rotated by 30; the
earliest reach back into `H`, "without the rotation for those not yet rotated". -/
def Obligations.MixerRecurrenceOnA : Prop :=
  ∀ (h : Chain) (b : Block) (k : Nat), k ≤ 80 →
    (1 ≤ k → (afterRounds h b k).b = (afterRounds h b (k - 1)).a) ∧
    (2 ≤ k → (afterRounds h b k).c = rotl32 (afterRounds h b (k - 2)).a 30) ∧
    (3 ≤ k → (afterRounds h b k).d = rotl32 (afterRounds h b (k - 3)).a 30) ∧
    (4 ≤ k → (afterRounds h b k).e = rotl32 (afterRounds h b (k - 4)).a 30) ∧
    (k = 1 → (afterRounds h b k).c = rotl32 h.h1 30) ∧
    (k = 2 → (afterRounds h b k).d = rotl32 h.h1 30) ∧
    (k = 3 → (afterRounds h b k).e = rotl32 h.h1 30) ∧
    (k = 1 → (afterRounds h b k).d = h.h2 ∧ (afterRounds h b k).e = h.h3) ∧
    (k = 2 → (afterRounds h b k).e = h.h2)

/-- R112: the design with a 16-word window computes the same value as the 80-word schedule. -/
def Obligations.RollingWindowComputesCompress : Prop :=
  ∀ (h : Chain) (b : Block), compressRolling h b = compress h b

/-! ## The block buffer -/

/-- R42: the words `COMPRESS` reads are big-endian. -/
def Obligations.WordReadBigEndian : Prop :=
  ∀ (s : State) (i : Nat), i < 16 →
    (bufWord s (4 * i)).toNat =
      (bufByte s (4 * i)).toNat * 2 ^ 24 + (bufByte s (4 * i + 1)).toNat * 2 ^ 16 +
        (bufByte s (4 * i + 2)).toNat * 2 ^ 8 + (bufByte s (4 * i + 3)).toNat ∧
    blockWord (bufBlock s) i = bufWord s (4 * i)

/-- R43: the footer write stores byte `L[63-8i : 56-8i]` at offset `56 + i`, its two words are the halves of `L`, and it
changes no other cell and no other part of the state. -/
def Obligations.FooterWriteBigEndian : Prop :=
  ∀ (s : State) (v : BitVec 64), ∃ t, memWrite8 56 v s = .next t ∧
    (∀ i, i < 8 → (bufByte t (56 + i)).toNat = v.toNat / 2 ^ (56 - 8 * i) % 2 ^ 8) ∧
    (∀ a, a < 56 → bufByte t a = bufByte s a) ∧
    bufWord t 56 = lenHi v ∧ bufWord t 60 = lenLo v ∧
    t = { s with buf := t.buf }

/-- R44: a byte write changes its cell and no other. -/
def Obligations.ByteWriteChangesOneCell : Prop :=
  ∀ (s : State) (a : Nat) (v : Byte), a < 64 → ∃ t, memWrite1 a v s = .next t ∧
    bufByte t a = v ∧ (∀ x, x ≠ a → bufByte t x = bufByte s x) ∧ t = { s with buf := t.buf }

/-- R8: "there is no other memory": with `FILL` at 64, where no run comes (R45), the three commands that would write
`BUF[64]` stop with the fault of that name and write nothing. -/
def Obligations.OffsetOutsideFaults : Prop :=
  ∀ s : State, s.st = .accepting → s.fill.val = 64 →
    (∀ b, s.len.toNat + 8 ≤ 2 ^ 64 - 1 → exec (.feed b) s = .fault .bufOffsetOutside) ∧
    exec .finalize s = .fault .bufOffsetOutside ∧ exec .digest s = .fault .bufOffsetOutside

/-! ## The five commands -/

/-- R130: `INIT` in every `ST`; nothing but the named fields changes, `BUF` among the rest; a second `INIT` changes
nothing. -/
def Obligations.InitMeaning : Prop :=
  encode .init = 0x1000 ∧
  ∀ s : State,
    exec .init s = .next { s with h := iv, fill := 0, len := 0, st := .accepting,
                                  rsp := some { status := .ok, digest := none } } ∧
    ∀ t, exec .init s = .next t → exec .init t = .next t

/-- R80, R83: `FEED` in every `ST` and on both sides of the counter test and of the block's end; nothing but the named
fields changes, and of `BUF` the one cell. -/
def Obligations.FeedMeaning : Prop :=
  ∀ (b : Byte) (s : State),
    encode (.feed b) = 0x2000 ||| b.setWidth 16 ∧
    (s.st = .overflowed →
      exec (.feed b) s = .next { s with rsp := some { status := .overflowed, digest := none } }) ∧
    (s.st = .finalized →
      exec (.feed b) s = .next { s with rsp := some { status := .invalidState, digest := none } }) ∧
    (s.st = .accepting → 2 ^ 64 - 1 < s.len.toNat + 8 →
      exec (.feed b) s =
        .next { s with st := .overflowed, rsp := some { status := .overflowed, digest := none } }) ∧
    (s.st = .accepting → s.len.toNat + 8 ≤ 2 ^ 64 - 1 → s.fill.val < 63 →
      ∃ f : Fin 65, f.val = s.fill.val + 1 ∧
        exec (.feed b) s =
          .next { s with buf := s.buf.write s.fill.val b, fill := f, len := s.len + 8,
                         rsp := some { status := .ok, digest := none } }) ∧
    (s.st = .accepting → s.len.toNat + 8 ≤ 2 ^ 64 - 1 → s.fill.val = 63 →
      exec (.feed b) s =
        .next { s with h := compress s.h (bufBlock { s with buf := s.buf.write 63 b }),
                       buf := s.buf.write 63 b, fill := 0, len := s.len + 8,
                       rsp := some { status := .ok, digest := none } })

/-- `FEED`'s frame through reads of single cells: the byte goes to the cell `FILL` names and to no other; only the overflow
path writes `ST`; `LEN` grows by exactly 8 or not at all. -/
def Obligations.FeedFrame : Prop :=
  ∀ (b : Byte) (s t : State), exec (.feed b) s = .next t →
    (∀ a, a ≠ s.fill.val → bufByte t a = bufByte s a) ∧
    (bufByte t s.fill.val = bufByte s s.fill.val ∨ bufByte t s.fill.val = b) ∧
    (s.fill.val ≠ 63 → t.h = s.h) ∧
    (t.st = s.st ∨ (s.st = .accepting ∧ t.st = .overflowed)) ∧
    (t.len.toNat = s.len.toNat + 8 ∨ t.len = s.len) ∧
    t.inbox = s.inbox ∧ t.era = s.era

/-- R82: in the states of a run the test fires exactly at `LEN = 2^64 - 8`, which is after `2^61 - 1` bytes; it then writes
`ST` alone; otherwise the counter grows by 8 without wrapping. -/
def Obligations.FeedOverflowDetection : Prop :=
  ∀ (b : Byte) (s : State), EngineInv s → s.st = .accepting →
    ((∃ t, exec (.feed b) s = .next t ∧ t.st = .overflowed) ↔ s.len.toNat = 2 ^ 64 - 8) ∧
    (s.len.toNat = 2 ^ 64 - 8 →
      exec (.feed b) s =
        .next { s with st := .overflowed, rsp := some { status := .overflowed, digest := none } }) ∧
    (s.len.toNat ≠ 2 ^ 64 - 8 → ∃ t, exec (.feed b) s = .next t ∧ t.len.toNat = s.len.toNat + 8) ∧
    (∀ m, Fed m s → (s.len.toNat = 2 ^ 64 - 8 ↔ m.length = 2 ^ 61 - 1))

/-- R90, R92, R94: `FINALIZE` in every `ST`; when accepting, the one or two blocks compressed and what `BUF` then holds,
`LEN` untouched, the session finalized. -/
def Obligations.FinalizeMeaning : Prop :=
  encode .finalize = 0x3000 ∧
  ∀ s : State,
    (s.st = .overflowed →
      exec .finalize s = .next { s with rsp := some { status := .overflowed, digest := none } }) ∧
    (s.st = .finalized →
      exec .finalize s = .next { s with rsp := some { status := .invalidState, digest := none } }) ∧
    (s.st = .accepting → s.fill.val ≤ 55 → ∃ m : Memory,
      exec .finalize s =
        .next { s with h := compress s.h (onlyBlock (pending s) s.len), buf := m, fill := 0, st := .finalized,
                       rsp := some { status := .ok, digest := none } } ∧
      bufBlock { s with buf := m } = onlyBlock (pending s) s.len) ∧
    (s.st = .accepting → 56 ≤ s.fill.val → s.fill.val ≤ 63 → ∃ m : Memory,
      exec .finalize s =
        .next { s with h := compress (compress s.h (spillFirst (pending s))) (spillSecond s.len), buf := m,
                       fill := 0, st := .finalized, rsp := some { status := .ok, digest := none } } ∧
      bufBlock { s with buf := m } = spillSecond s.len)

/-- `FINALIZE`'s and `DIGEST`'s frame: a cell they do not store to reads as before; `LEN` is not written; outside an
accepting session nothing but the response changes. -/
def Obligations.ClosingCommandsFrame : Prop :=
  ∀ (i : Instr) (s t : State), i = .finalize ∨ i = .digest → exec i s = .next t →
    (∀ a, ¬ closingStores s a → bufByte t a = bufByte s a) ∧
    t.len = s.len ∧ t.inbox = s.inbox ∧ t.era = s.era ∧
    (s.st ≠ .accepting → t = { s with rsp := t.rsp }) ∧
    (s.st = .accepting → t.st = .finalized ∧ t.fill.val = 0)

/-- R120: `RENDER` in every `ST`; it writes nothing but the response, and repeated it gives the same. -/
def Obligations.RenderMeaning : Prop :=
  encode .render = 0x4000 ∧
  ∀ s : State,
    (s.st = .finalized → exec .render s =
      .next { s with rsp := some { status := .ok, digest := some (s.h.h0 ++ s.h.h1 ++ s.h.h2 ++ s.h.h3 ++ s.h.h4) } }) ∧
    (s.st ≠ .finalized → exec .render s =
      .next { s with rsp := some { status := .notFinalized, digest := none } }) ∧
    ∀ t, exec .render s = .next t → exec .render t = .next t

/-- R131: `DIGEST` in every `ST`: raises when overflowed, answers the digest when finalized, and when accepting it is
`FINALIZE` and then `RENDER`; repeated it changes nothing. -/
def Obligations.DigestMeaning : Prop :=
  encode .digest = 0x5000 ∧
  ∀ s : State,
    (s.st = .overflowed →
      exec .digest s = .next { s with rsp := some { status := .overflowed, digest := none } }) ∧
    (s.st = .finalized →
      exec .digest s = .next { s with rsp := some { status := .ok, digest := some (payload s.h) } }) ∧
    (s.st = .accepting → s.fill.val ≤ 63 → ∃ u t,
      exec .finalize s = .next u ∧ exec .digest s = .next t ∧
      t = { u with rsp := some { status := .ok, digest := some (payload u.h) } } ∧
      exec .render u = .next t ∧ exec .digest t = .next t)

/-! ## Responses, errors, the lifecycle -/

/-- R23, R141: in every state of a run every command completes with the status, the payload and the next `ST` of its
table cell; an undecodable word gives `IllegalCommand` and leaves `ST` unchanged. -/
def Obligations.LifecycleTable : Prop :=
  (∀ (i : Instr) (s : State), EngineInv s → ∃ t r,
    exec i s = .next t ∧ t.rsp = some r ∧
    (r.status, r.digest.isSome, t.st) = lifecycleCell s.st (decide (s.len.toNat = 2 ^ 64 - 8)) i) ∧
  ∀ (s : State) (w : CmdWord) (rest : List HostInput), s.inbox = .command w :: rest →
    (∀ i, decode w ≠ .command i) → ∃ t r, step s = .next t ∧ t.rsp = some r ∧ r.status = .illegalCommand ∧ t.st = s.st

/-- R64: the value of `rsp_status` for each of the five statuses; 5, 6 and 7 are never produced. -/
def Obligations.StatusCodesOnPins : Prop :=
  (∀ (t : State) (r : Response), t.rsp = some r →
    (r.status = .ok → rspStatusPins t = some 0) ∧ (r.status = .invalidState → rspStatusPins t = some 1) ∧
    (r.status = .overflowed → rspStatusPins t = some 2) ∧ (r.status = .notFinalized → rspStatusPins t = some 3) ∧
    (r.status = .illegalCommand → rspStatusPins t = some 4)) ∧
  ∀ (t : State) (c : BitVec 3), rspStatusPins t = some c → c.toNat ≤ 4

/-- R144: an error response carries no payload, and the state is what it was, save the `ST` of the `FEED` that detects
overflow. -/
def Obligations.RaiseWritesNothing : Prop :=
  ∀ (s t : State) (w : CmdWord) (rest : List HostInput) (r : Response),
    s.inbox = .command w :: rest → step s = .next t → t.rsp = some r → r.status ≠ .ok →
      r.digest = none ∧
      (SameMachine s t ∨
        ((∃ b, decode w = .command (.feed b)) ∧ s.st = .accepting ∧ r.status = .overflowed ∧ t.st = .overflowed ∧
          SameMachine { s with st := .overflowed } t))

/-- R145: neither `Overflowed` nor `Finalized` is left by anything the host does but `INIT`'s word and reset, and nothing
else changes the machine then; a failed command issued again in the state it left fails the same way. -/
def Obligations.TerminalStatesLeftOnlyByInit : Prop :=
  (∀ s : State, s.st = .overflowed ∨ s.st = .finalized →
    (∀ w rest, s.inbox = .command w :: rest → decode w ≠ .command .init) →
    (∀ rest, s.inbox ≠ .rst :: rest) → (∀ w rest, s.inbox ≠ .commandThenRst w :: rest) →
      ∃ t, step s = .next t ∧ SameMachine s t ∧ t.inbox = s.inbox.tail) ∧
  ∀ (i : Instr) (s t : State) (r : Response), exec i s = .next t → t.rsp = some r → r.status ≠ .ok →
    exec i t = .next t

/-- R123: from a finalized session on, whatever words follow without an `INIT`, every payload given is the same, and every
`RENDER` and `DIGEST` gives it; no command but `INIT` changes `H`. -/
def Obligations.FinalizedDigestImmutable : Prop :=
  (∀ (i : Instr) (s : State), s.st = .finalized → i ≠ .init →
    ∃ t, exec i s = .next t ∧ t.h = s.h ∧ t.st = .finalized) ∧
  ∀ (s : State) (ws : List CmdWord), s.st = .finalized → (∀ w ∈ ws, decode w ≠ .command .init) →
    (responses ws s).length = ws.length ∧
    ∀ k, k < ws.length →
      ((decode (ws.getD k 0) = .command .render ∨ decode (ws.getD k 0) = .command .digest) →
        (responses ws s)[k]? = some { status := .ok, digest := some (payload s.h) }) ∧
      (∀ b, decode (ws.getD k 0) = .command (.feed b) →
        (responses ws s)[k]? = some { status := .invalidState, digest := none }) ∧
      ∀ r, (responses ws s)[k]? = some r → r.digest = none ∨ r.digest = some (payload s.h)

/-- R65: a payload appears only in an `OK` response to `RENDER` or `DIGEST`, in a finalized session, and is `H[0]` to `H[4]`
from bit 159 down; a response without one shows all zeros. -/
def Obligations.PayloadOnlyOfFinalizedDigest : Prop :=
  (∀ (s t : State) (r : Response), step s = .next t → t.rsp = some r →
    (∀ d, r.digest = some d → r.status = .ok ∧ t.st = .finalized ∧ rspDigestPins t = some d ∧
      d.extractLsb' 128 32 = t.h.h0 ∧ d.extractLsb' 96 32 = t.h.h1 ∧ d.extractLsb' 64 32 = t.h.h2 ∧
      d.extractLsb' 32 32 = t.h.h3 ∧ d.extractLsb' 0 32 = t.h.h4 ∧
      ∃ w rest, s.inbox = .command w :: rest ∧ (decode w = .command .render ∨ decode w = .command .digest)) ∧
    (r.digest = none → rspDigestPins t = some 0)) ∧
  ∀ (s t : State) (w : CmdWord) (rest : List HostInput) (r : Response),
    s.inbox = .command w :: rest → (decode w = .command .render ∨ decode w = .command .digest) →
    step s = .next t → t.rsp = some r → r.status = .ok → r.digest ≠ none

/-- R121: byte `4i + j` of the digest is `H[i][31-8j : 24-8j]`. -/
def Obligations.DigestBytesBigEndian : Prop :=
  ∀ (h : Chain) (i : Fin 5) (j : Nat), j < 4 →
    payloadByte (payload h) (4 * i.val + j) = (h.get i).extractLsb' (24 - 8 * j) 8

/-- R122: `hex40` is the five `hex8`s in order, `hex8` is eight digits from the most significant nibble down, a digit is the
character of `0123456789abcdef` at its value; so the string has 40 characters and determines the digest. -/
def Obligations.HexStringOfDigest : Prop :=
  (∀ h : Chain, hex40 (payload h) = hex8 h.h0 ++ hex8 h.h1 ++ hex8 h.h2 ++ hex8 h.h3 ++ hex8 h.h4) ∧
  (∀ w : Word, (hex8 w).length = 8 ∧
    ∀ j, j < 8 → (hex8 w)[j]? = "0123456789abcdef".toList[w.toNat / 2 ^ (28 - 4 * j) % 16]?) ∧
  (∀ d : Payload, (hex40 d).length = 40) ∧
  ∀ d e : Payload, hex40 d = hex40 e → d = e

/-- R66, R143: every word presented gets exactly one response, legal or not, in the states of a run. -/
def Obligations.EveryWordAnsweredOnce : Prop :=
  (∀ (s : State) (w : CmdWord) (rest : List HostInput), EngineInv s → s.inbox = .command w :: rest →
    ∃ t r, step s = .next t ∧ t.rsp = some r ∧ t.inbox = rest) ∧
  ∀ (ws : List CmdWord) (s : State), EngineInv s → (responses ws s).length = ws.length

/-! ## Reset and the host -/

/-- R160, R24: `rst`, alone or while a command is in progress, makes the fresh session and no response; `cmd_ready` is 1. -/
def Obligations.ResetInputMakesFreshSession : Prop :=
  ∀ (s : State) (rest : List HostInput) (w : CmdWord),
    s.inbox = .rst :: rest ∨ s.inbox = .commandThenRst w :: rest →
      ∃ t, step s = .next t ∧ t.h = iv ∧ t.fill.val = 0 ∧ t.len = 0 ∧ t.st = .accepting ∧
        rspValid t = false ∧ cmdReady t = true ∧ t.inbox = rest

/-- R11, R12 and the reset column of 10_state.md's register table: the constants of the hardware written out, and the
registers right after reset. -/
def Obligations.ConstantsAndResetRegisters : Prop :=
  State.reset.h =
    { h0 := 0x67452301, h1 := 0xEFCDAB89, h2 := 0x98BADCFE, h3 := 0x10325476, h4 := 0xC3D2E1F0 } ∧
  roundConstant 0 = 0x5A827999 ∧ roundConstant 1 = 0x6ED9EBA1 ∧ roundConstant 2 = 0x8F1BBCDC ∧
  roundConstant 3 = 0xCA62C1D6 ∧
  State.reset.fill.val = 0 ∧ State.reset.len = 0 ∧ State.reset.st = .accepting ∧ State.reset.rsp = none

/-- R168: when the host sends nothing, the state holds; a response stands for one step only (R66). -/
def Obligations.IdleBoundaryHoldsState : Prop :=
  ∀ s : State,
    (s.inbox = [] → step s = .next { s with rsp := none }) ∧
    ∀ rest, s.inbox = .idle :: rest → step s = .next { s with rsp := none, inbox := rest }

/-! ## Invariants and whole sessions -/

/-- The invariant of R21 holds right after reset. -/
def Obligations.ResetMeetsInvariant : Prop := EngineInv State.reset

/-- R21: every step from a state with the invariant, whatever the host does, leads to a state with it. -/
def Obligations.StepKeepsInvariant : Prop :=
  ∀ s t : State, EngineInv s → step s = .next t → EngineInv t

/-- R21 items 3 to 5 with the history of the session hold right after reset. -/
def Obligations.ResetBeginsSession : Prop := SessionInv State.reset

/-- R21 items 3 to 5 with the history of the session: every step, whatever the host does, leads from a state that some
accepted bytes explain (accepting, overflowed or finalized) to a state that some accepted bytes explain. -/
def Obligations.StepKeepsSessionHistory : Prop :=
  ∀ s t : State, SessionInv s → step s = .next t → SessionInv t

/-- R152, R166: "No error stops the engine": a state with the invariant has a next step, to a state with it; so after any
inputs whatever, words, resets or nothing, in any number, the engine is idle with all of R21 holding, the history of `H`
and `BUF` included. -/
def Obligations.EngineNeverStops : Prop :=
  (∀ s : State, EngineInv s → ∃ t, step s = .next t ∧ EngineInv t) ∧
  ∀ (ins : List HostInput) (n : Nat), ∃ t,
    Host.Core.run Sys2Proof.core n { State.reset with inbox := ins } = .next t ∧ EngineInv t ∧ SessionInv t

/-- R21 item 3: `INIT` begins a session fed nothing, and an accepted `FEED b` takes a session fed `m` to one fed `m` and
then `b`. -/
def Obligations.FeedExtendsSession : Prop :=
  (∀ s t : State, exec .init s = .next t → Fed [] t) ∧
  ∀ (m : List Byte) (b : Byte) (s : State), Fed m s → m.length < 2 ^ 61 - 1 →
    ∃ t, exec (.feed b) s = .next t ∧ Fed (m ++ [b]) t ∧ t.rsp = some { status := .ok, digest := none }

/-- R21 item 4: `FINALIZE` closes a session fed `m` with the SHA-1 state of `m`. -/
def Obligations.FinalizeClosesSession : Prop :=
  ∀ (m : List Byte) (s : State), Fed m s → m.length ≤ 2 ^ 61 - 1 →
    ∃ t, exec .finalize s = .next t ∧ Closed m t ∧ t.rsp = some { status := .ok, digest := none }

/-- R22's `k`: the least with `(n + 1 + k + 8) mod 64 = 0`, so the padded message is whole blocks. -/
def Obligations.PaddingIsLeast : Prop :=
  ∀ m : List Byte,
    (m.length + 1 + padZeros m.length + 8) % 64 = 0 ∧
    (∀ k, (m.length + 1 + k + 8) % 64 = 0 → padZeros m.length ≤ k) ∧
    (padded m).length % 64 = 0

/-- R22: from ANY state a session begun by `INIT` (as `HASH m` is, R133) or by reset, run as the host presents it, answers
`OK` with the SHA-1 digest of `m`, for every message of at most `2^61 - 1` bytes; ending with `FINALIZE` and `RENDER` gives
the same. -/
def Obligations.HashComputesSha1 : Prop :=
  ∀ (m : List Byte) (s : State) (rest : List HostInput), m.length ≤ 2 ^ 61 - 1 →
    (∃ t, Host.Core.run Sys2Proof.core (m.length + 2)
        { s with inbox := (assemble (hash m)).map .command ++ rest } = .next t ∧
      t.rsp = some { status := .ok, digest := some (payload (sha1 m)) } ∧ t.inbox = rest ∧ Closed m t) ∧
    (∃ t, Host.Core.run Sys2Proof.core (m.length + 3)
        { s with inbox := (assemble (.init :: feeds m ++ [.finalize, .render])).map .command ++ rest } = .next t ∧
      t.rsp = some { status := .ok, digest := some (payload (sha1 m)) } ∧ t.inbox = rest ∧ Closed m t) ∧
    (∃ t, Host.Core.run Sys2Proof.core (m.length + 2)
        { s with inbox := .rst :: (assemble (feeds m ++ [.digest])).map .command ++ rest } = .next t ∧
      t.rsp = some { status := .ok, digest := some (payload (sha1 m)) } ∧ t.inbox = rest ∧ Closed m t) ∧
    (∃ t, Host.Core.run Sys2Proof.core (m.length + 3)
        { s with inbox := .rst :: (assemble (feeds m ++ [.finalize, .render])).map .command ++ rest } = .next t ∧
      t.rsp = some { status := .ok, digest := some (payload (sha1 m)) } ∧ t.inbox = rest ∧ Closed m t)

/-- R133: "for longer inputs it is `Overflowed` with no payload". -/
def Obligations.HashTooLongOverflows : Prop :=
  ∀ (m : List Byte) (s : State) (rest : List HostInput), 2 ^ 61 ≤ m.length →
    ∃ t, Host.Core.run Sys2Proof.core (m.length + 2)
        { s with inbox := (assemble (hash m)).map .command ++ rest } = .next t ∧
      t.rsp = some { status := .overflowed, digest := none } ∧ t.inbox = rest

/-- R85: from the first failing `FEED` on, every later one of the sequence fails with the same status and changes nothing;
`FEEDS`'s result is that status, and `OK` when none fails or there is none. -/
def Obligations.FeedsFailAlike : Prop :=
  (∀ s : State, feedsStatus (responses (assemble (feeds [])) s) = .ok) ∧
  (∀ (b : Byte) (bs : List Byte) (s t : State) (r : Response), exec (.feed b) s = .next t → t.rsp = some r →
    r.status ≠ .ok → runInstrs (feeds bs) t = .next t ∧
      feedsStatus (responses (assemble (feeds (b :: bs))) s) = r.status) ∧
  ∀ (b : Byte) (bs : List Byte) (s t : State) (r : Response), exec (.feed b) s = .next t → t.rsp = some r →
    r.status = .ok →
      feedsStatus (responses (assemble (feeds (b :: bs))) s) = feedsStatus (responses (assemble (feeds bs)) t)

/-- R86: in every state of a run `FEEDS x`, then `FEEDS y`, and `FEEDS (x followed by y)` all complete, and the last two in
one state. In a session fed `m` that state is the session fed `m`, `x` and `y`, and its `DIGEST` is the SHA-1 digest of
those bytes, however they were cut. -/
def Obligations.FeedsChunkingInvariant : Prop :=
  (∀ (x y : List Byte) (s : State), EngineInv s → ∃ u t,
    runInstrs (feeds x) s = .next u ∧ runInstrs (feeds y) u = .next t ∧ runInstrs (feeds (x ++ y)) s = .next t) ∧
  ∀ (m x y : List Byte) (s : State), Fed m s → (m ++ x ++ y).length ≤ 2 ^ 61 - 1 → ∃ u t d,
    runInstrs (feeds x) s = .next u ∧ Fed (m ++ x) u ∧
    runInstrs (feeds y) u = .next t ∧ Fed (m ++ x ++ y) t ∧
    runInstrs (feeds (x ++ y)) s = .next t ∧
    exec .digest t = .next d ∧ d.rsp = some { status := .ok, digest := some (payload (sha1 (m ++ x ++ y))) }

/-- R51: two machines that agree on the registers and on the pending bytes answer every word alike and go on agreeing,
whatever else their buffers hold. -/
def Obligations.AgreeingMachinesAnswerAlike : Prop :=
  ∀ (s t : State) (w : CmdWord), s.fill.val < 64 → Agree s t →
    ∃ s' t', step { s with inbox := [.command w] } = .next s' ∧ step { t with inbox := [.command w] } = .next t' ∧
      s'.rsp = t'.rsp ∧ Agree s' t' ∧ s'.fill.val < 64

/-- R134: after an `INIT` or a reset the responses are a function of the words alone: not of what was hashed before, nor of
the free content of `BUF`. -/
def Obligations.ResponsesForgetThePast : Prop :=
  ∀ (s t : State) (ws : List CmdWord),
    responses (encode .init :: ws) s = responses (encode .init :: ws) t ∧
    responses ws (applyRst s) = responses ws (applyRst t)
end

