-- ==== Sys2Proof/Laws/State.lean ====
section
/-!
SUPPORT. One lemma per field per update of the state, true by rfl, and the fields of the composite updates. They are written
`id rfl` so that simp takes them as equations and not as definitional unfoldings: where a field holds a `compress` term,
a check by unfolding sends the kernel into the 80 rounds.
-/

namespace Sys2Proof.Machine

@[simp] theorem State.setH_h (s : State) (v : Chain) : (s.setH v).h = v := id rfl
@[simp] theorem State.setH_buf (s : State) (v : Chain) : (s.setH v).buf = s.buf := id rfl
@[simp] theorem State.setH_fill (s : State) (v : Chain) : (s.setH v).fill = s.fill := id rfl
@[simp] theorem State.setH_len (s : State) (v : Chain) : (s.setH v).len = s.len := id rfl
@[simp] theorem State.setH_st (s : State) (v : Chain) : (s.setH v).st = s.st := id rfl
@[simp] theorem State.setH_rsp (s : State) (v : Chain) : (s.setH v).rsp = s.rsp := id rfl
@[simp] theorem State.setH_inbox (s : State) (v : Chain) : (s.setH v).inbox = s.inbox := id rfl
@[simp] theorem State.setH_era (s : State) (v : Chain) : (s.setH v).era = s.era := id rfl

@[simp] theorem State.setBuf_h (s : State) (v : Memory) : (s.setBuf v).h = s.h := id rfl
@[simp] theorem State.setBuf_buf (s : State) (v : Memory) : (s.setBuf v).buf = v := id rfl
@[simp] theorem State.setBuf_fill (s : State) (v : Memory) : (s.setBuf v).fill = s.fill := id rfl
@[simp] theorem State.setBuf_len (s : State) (v : Memory) : (s.setBuf v).len = s.len := id rfl
@[simp] theorem State.setBuf_st (s : State) (v : Memory) : (s.setBuf v).st = s.st := id rfl
@[simp] theorem State.setBuf_rsp (s : State) (v : Memory) : (s.setBuf v).rsp = s.rsp := id rfl
@[simp] theorem State.setBuf_inbox (s : State) (v : Memory) : (s.setBuf v).inbox = s.inbox := id rfl
@[simp] theorem State.setBuf_era (s : State) (v : Memory) : (s.setBuf v).era = s.era := id rfl

@[simp] theorem State.setFill_h (s : State) (v : Fin 65) : (s.setFill v).h = s.h := id rfl
@[simp] theorem State.setFill_buf (s : State) (v : Fin 65) : (s.setFill v).buf = s.buf := id rfl
@[simp] theorem State.setFill_fill (s : State) (v : Fin 65) : (s.setFill v).fill = v := id rfl
@[simp] theorem State.setFill_len (s : State) (v : Fin 65) : (s.setFill v).len = s.len := id rfl
@[simp] theorem State.setFill_st (s : State) (v : Fin 65) : (s.setFill v).st = s.st := id rfl
@[simp] theorem State.setFill_rsp (s : State) (v : Fin 65) : (s.setFill v).rsp = s.rsp := id rfl
@[simp] theorem State.setFill_inbox (s : State) (v : Fin 65) : (s.setFill v).inbox = s.inbox := id rfl
@[simp] theorem State.setFill_era (s : State) (v : Fin 65) : (s.setFill v).era = s.era := id rfl

@[simp] theorem State.setLen_h (s : State) (v : BitVec 64) : (s.setLen v).h = s.h := id rfl
@[simp] theorem State.setLen_buf (s : State) (v : BitVec 64) : (s.setLen v).buf = s.buf := id rfl
@[simp] theorem State.setLen_fill (s : State) (v : BitVec 64) : (s.setLen v).fill = s.fill := id rfl
@[simp] theorem State.setLen_len (s : State) (v : BitVec 64) : (s.setLen v).len = v := id rfl
@[simp] theorem State.setLen_st (s : State) (v : BitVec 64) : (s.setLen v).st = s.st := id rfl
@[simp] theorem State.setLen_rsp (s : State) (v : BitVec 64) : (s.setLen v).rsp = s.rsp := id rfl
@[simp] theorem State.setLen_inbox (s : State) (v : BitVec 64) : (s.setLen v).inbox = s.inbox := id rfl
@[simp] theorem State.setLen_era (s : State) (v : BitVec 64) : (s.setLen v).era = s.era := id rfl

@[simp] theorem State.setSt_h (s : State) (v : Lifecycle) : (s.setSt v).h = s.h := id rfl
@[simp] theorem State.setSt_buf (s : State) (v : Lifecycle) : (s.setSt v).buf = s.buf := id rfl
@[simp] theorem State.setSt_fill (s : State) (v : Lifecycle) : (s.setSt v).fill = s.fill := id rfl
@[simp] theorem State.setSt_len (s : State) (v : Lifecycle) : (s.setSt v).len = s.len := id rfl
@[simp] theorem State.setSt_st (s : State) (v : Lifecycle) : (s.setSt v).st = v := id rfl
@[simp] theorem State.setSt_rsp (s : State) (v : Lifecycle) : (s.setSt v).rsp = s.rsp := id rfl
@[simp] theorem State.setSt_inbox (s : State) (v : Lifecycle) : (s.setSt v).inbox = s.inbox := id rfl
@[simp] theorem State.setSt_era (s : State) (v : Lifecycle) : (s.setSt v).era = s.era := id rfl

@[simp] theorem State.setRsp_h (s : State) (v : Option Response) : (s.setRsp v).h = s.h := id rfl
@[simp] theorem State.setRsp_buf (s : State) (v : Option Response) : (s.setRsp v).buf = s.buf := id rfl
@[simp] theorem State.setRsp_fill (s : State) (v : Option Response) : (s.setRsp v).fill = s.fill := id rfl
@[simp] theorem State.setRsp_len (s : State) (v : Option Response) : (s.setRsp v).len = s.len := id rfl
@[simp] theorem State.setRsp_st (s : State) (v : Option Response) : (s.setRsp v).st = s.st := id rfl
@[simp] theorem State.setRsp_rsp (s : State) (v : Option Response) : (s.setRsp v).rsp = v := id rfl
@[simp] theorem State.setRsp_inbox (s : State) (v : Option Response) : (s.setRsp v).inbox = s.inbox := id rfl
@[simp] theorem State.setRsp_era (s : State) (v : Option Response) : (s.setRsp v).era = s.era := id rfl

@[simp] theorem State.setInbox_h (s : State) (v : List HostInput) : (s.setInbox v).h = s.h := id rfl
@[simp] theorem State.setInbox_buf (s : State) (v : List HostInput) : (s.setInbox v).buf = s.buf := id rfl
@[simp] theorem State.setInbox_fill (s : State) (v : List HostInput) : (s.setInbox v).fill = s.fill := id rfl
@[simp] theorem State.setInbox_len (s : State) (v : List HostInput) : (s.setInbox v).len = s.len := id rfl
@[simp] theorem State.setInbox_st (s : State) (v : List HostInput) : (s.setInbox v).st = s.st := id rfl
@[simp] theorem State.setInbox_rsp (s : State) (v : List HostInput) : (s.setInbox v).rsp = s.rsp := id rfl
@[simp] theorem State.setInbox_inbox (s : State) (v : List HostInput) : (s.setInbox v).inbox = v := id rfl
@[simp] theorem State.setInbox_era (s : State) (v : List HostInput) : (s.setInbox v).era = s.era := id rfl

@[simp] theorem freshSession_h (s : State) : (freshSession s).h = iv := id rfl
@[simp] theorem freshSession_buf (s : State) : (freshSession s).buf = s.buf := id rfl
@[simp] theorem freshSession_fill (s : State) : (freshSession s).fill = 0 := id rfl
@[simp] theorem freshSession_len (s : State) : (freshSession s).len = 0 := id rfl
@[simp] theorem freshSession_st (s : State) : (freshSession s).st = .accepting := id rfl
@[simp] theorem freshSession_rsp (s : State) : (freshSession s).rsp = s.rsp := id rfl
@[simp] theorem freshSession_inbox (s : State) : (freshSession s).inbox = s.inbox := id rfl
@[simp] theorem freshSession_era (s : State) : (freshSession s).era = s.era := id rfl

@[simp] theorem applyRst_h (s : State) : (applyRst s).h = iv := id rfl
@[simp] theorem applyRst_buf (s : State) : (applyRst s).buf = [] := id rfl
@[simp] theorem applyRst_fill (s : State) : (applyRst s).fill = 0 := id rfl
@[simp] theorem applyRst_len (s : State) : (applyRst s).len = 0 := id rfl
@[simp] theorem applyRst_st (s : State) : (applyRst s).st = .accepting := id rfl
@[simp] theorem applyRst_rsp (s : State) : (applyRst s).rsp = none := id rfl
@[simp] theorem applyRst_inbox (s : State) : (applyRst s).inbox = s.inbox := id rfl
@[simp] theorem applyRst_era (s : State) : (applyRst s).era = s.era + 1 := id rfl

@[simp] theorem noInput_h (s : State) : (noInput s).h = s.h := id rfl
@[simp] theorem noInput_buf (s : State) : (noInput s).buf = s.buf := id rfl
@[simp] theorem noInput_fill (s : State) : (noInput s).fill = s.fill := id rfl
@[simp] theorem noInput_len (s : State) : (noInput s).len = s.len := id rfl
@[simp] theorem noInput_st (s : State) : (noInput s).st = s.st := id rfl
@[simp] theorem noInput_rsp (s : State) : (noInput s).rsp = none := id rfl
@[simp] theorem noInput_inbox (s : State) : (noInput s).inbox = s.inbox := id rfl
@[simp] theorem noInput_era (s : State) : (noInput s).era = s.era := id rfl

@[simp] theorem compressBuf_h (s : State) : (compressBuf s).h = compress s.h (bufBlock s) := State.setH_h _ _
@[simp] theorem compressBuf_buf (s : State) : (compressBuf s).buf = s.buf := State.setH_buf _ _
@[simp] theorem compressBuf_fill (s : State) : (compressBuf s).fill = s.fill := State.setH_fill _ _
@[simp] theorem compressBuf_len (s : State) : (compressBuf s).len = s.len := State.setH_len _ _
@[simp] theorem compressBuf_st (s : State) : (compressBuf s).st = s.st := State.setH_st _ _
@[simp] theorem compressBuf_rsp (s : State) : (compressBuf s).rsp = s.rsp := State.setH_rsp _ _
@[simp] theorem compressBuf_inbox (s : State) : (compressBuf s).inbox = s.inbox := State.setH_inbox _ _
@[simp] theorem compressBuf_era (s : State) : (compressBuf s).era = s.era := State.setH_era _ _

@[simp] theorem compressAndRewind_h (s : State) : (compressAndRewind s).h = compress s.h (bufBlock s) := (State.setFill_h _ _).trans (compressBuf_h s)
@[simp] theorem compressAndRewind_buf (s : State) : (compressAndRewind s).buf = s.buf := (State.setFill_buf _ _).trans (compressBuf_buf s)
@[simp] theorem compressAndRewind_fill (s : State) : (compressAndRewind s).fill = 0 := State.setFill_fill _ _
@[simp] theorem compressAndRewind_len (s : State) : (compressAndRewind s).len = s.len := (State.setFill_len _ _).trans (compressBuf_len s)
@[simp] theorem compressAndRewind_st (s : State) : (compressAndRewind s).st = s.st := (State.setFill_st _ _).trans (compressBuf_st s)
@[simp] theorem compressAndRewind_rsp (s : State) : (compressAndRewind s).rsp = s.rsp := (State.setFill_rsp _ _).trans (compressBuf_rsp s)
@[simp] theorem compressAndRewind_inbox (s : State) : (compressAndRewind s).inbox = s.inbox := (State.setFill_inbox _ _).trans (compressBuf_inbox s)
@[simp] theorem compressAndRewind_era (s : State) : (compressAndRewind s).era = s.era := (State.setFill_era _ _).trans (compressBuf_era s)

end Sys2Proof.Machine
end

