-- ==== Sys2Proof/Laws/Memory.lean ====
section
/-!
SUPPORT. What a write to `BUF` does to a read, and that every memory operation keeps the canonical form.
-/

namespace Sys2Proof.Machine

@[simp] theorem Memory.read_nil (x : Nat) : Memory.read [] x = none := rfl

@[simp] theorem Memory.read_cons (a : Nat) (v : Byte) (m : Memory) (x : Nat) :
    Memory.read ((a, v) :: m) x = if a = x then some v else Memory.read m x := rfl

/-- Read after write: the written cell holds the new byte, every other cell what it held. -/
theorem Memory.read_write (m : Memory) (x : Nat) (v : Byte) (y : Nat) :
    (m.write x v).read y = if y = x then some v else m.read y := by
  induction m with
  | nil => simp [Memory.write, eq_comm]
  | cons c m ih =>
    obtain ⟨a, w⟩ := c
    unfold Memory.write
    split
    · simp [eq_comm]
    · split
      · subst_vars
        simp only [read_cons, eq_comm (a := a)]
        split <;> rfl
      · simp only [read_cons, ih]
        split
        · subst_vars
          rw [if_neg (by omega)]
        · rfl

@[simp] theorem Memory.read_write_same (m : Memory) (x : Nat) (v : Byte) : (m.write x v).read x = some v := by
  simp [read_write]

theorem Memory.read_write_other (m : Memory) {x y : Nat} (v : Byte) (h : y ≠ x) :
    (m.write x v).read y = m.read y := by
  simp [read_write, h]

/-- The offsets after a write are the old ones and the written one. -/
theorem Memory.mem_write {m : Memory} {x : Nat} {v : Byte} {c : Host.Cell} (hc : c ∈ m.write x v) :
    c = (x, v) ∨ c ∈ m := by
  induction m with
  | nil => simpa [Memory.write] using hc
  | cons d m ih =>
    obtain ⟨a, w⟩ := d
    unfold Memory.write at hc
    split at hc
    · simpa using hc
    · split at hc
      · simp only [List.mem_cons] at hc ⊢
        tauto
      · simp only [List.mem_cons] at hc ⊢
        rcases hc with rfl | hc
        · exact .inr (.inl rfl)
        · exact (ih hc).imp_right .inr

theorem Memory.wf_nil : Memory.wf [] := by simp [Memory.wf]

/-- A write to an existing cell keeps the canonical form. -/
theorem Memory.wf_write {m : Memory} {x : Nat} {v : Byte} (hx : x < 64) (h : m.wf) : (m.write x v).wf := by
  refine ⟨?_, fun c hc => ?_⟩
  · have hp := h.1
    clear h
    induction m with
    | nil => simp [Memory.write]
    | cons d m ih =>
      obtain ⟨a, w⟩ := d
      obtain ⟨hd, hm⟩ := List.pairwise_cons.1 hp
      unfold Memory.write
      split
      · refine List.pairwise_cons.2 ⟨fun c hc => ?_, hp⟩
        rcases List.mem_cons.1 hc with rfl | hc
        · assumption
        · exact Nat.lt_trans ‹x < a› (hd c hc)
      · split
        · subst_vars
          exact List.pairwise_cons.2 ⟨hd, hm⟩
        · refine List.pairwise_cons.2 ⟨fun c hc => ?_, ih hm⟩
          rcases Memory.mem_write hc with rfl | hc
          · show a < x
            omega
          · exact hd c hc
  · rcases Memory.mem_write hc with rfl | hc
    · exact hx
    · exact h.2 c hc

/-- In the canonical form equal contents are equal data. -/
theorem Memory.eq_of_read_eq {m n : Memory} (hm : m.wf) (hn : n.wf) (h : ∀ x, m.read x = n.read x) : m = n := by
  have small : ∀ (l : Memory) (x : Nat), (∀ c ∈ l, x < c.1) → l.read x = none := by
    intro l x hl
    induction l with
    | nil => rfl
    | cons c l ih =>
      obtain ⟨a, w⟩ := c
      rw [read_cons, if_neg (Nat.ne_of_gt (hl _ List.mem_cons_self)),
        ih fun c hc => hl c (List.mem_cons_of_mem _ hc)]
  obtain ⟨hm, -⟩ := hm
  obtain ⟨hn, -⟩ := hn
  induction m generalizing n with
  | nil =>
    cases n with
    | nil => rfl
    | cons d n =>
      obtain ⟨b, w⟩ := d
      simpa using h b
  | cons c m ih =>
    cases n with
    | nil =>
      obtain ⟨a, v⟩ := c
      simpa using h a
    | cons d n =>
      obtain ⟨a, v⟩ := c
      obtain ⟨b, w⟩ := d
      obtain ⟨ha, hm⟩ := List.pairwise_cons.1 hm
      obtain ⟨hb, hn⟩ := List.pairwise_cons.1 hn
      have hab : a = b := by
        have h1 := h a
        have h2 := h b
        rcases Nat.lt_trichotomy a b with hlt | rfl | hlt
        · rw [read_cons, if_pos rfl, read_cons, if_neg (Nat.ne_of_gt hlt),
            small n a fun c hc => Nat.lt_trans hlt (hb c hc)] at h1
          simp at h1
        · rfl
        · rw [read_cons, if_neg (Nat.ne_of_gt hlt), read_cons, if_pos rfl,
            small m b fun c hc => Nat.lt_trans hlt (ha c hc)] at h2
          simp at h2
      subst hab
      have hv : v = w := by simpa using h a
      subst hv
      congr 1
      refine ih (fun x => ?_) ‹_› ‹_›
      have hx := h x
      simp only [read_cons] at hx
      split at hx
      · subst_vars
        rw [small m _ ha, small n _ hb]
      · exact hx

end Sys2Proof.Machine
end

