-- ==== Sys2Proof/Laws/Ops.lean ====
section
/-!
SUPPORT. One lemma per shared operation that says once what it does: sequencing, the byte and footer writes, the append of
a byte, the zero fill, the checks.
-/

namespace Sys2Proof.Machine

@[simp] theorem andThen_next (s : State) (k : State → Result) : andThen (.next s) k = k s := rfl
@[simp] theorem andThen_fault (f : Fault) (k : State → Result) : andThen (.fault f) k = .fault f := rfl
@[simp] theorem andThen_refused (f : Refusal) (k : State → Result) : andThen (.refused f) k = .refused f := rfl

/-- A sequence answers a next state only through a next state of its first part. -/
theorem andThen_eq_next {r : Result} {k : State → Result} {t : State} :
    andThen r k = .next t ↔ ∃ s, r = .next s ∧ k s = .next t := by
  cases r <;> simp

theorem andThen_assoc (r : Result) (k l : State → Result) :
    andThen (andThen r k) l = andThen r fun s => andThen (k s) l := by
  cases r <;> rfl

@[simp] theorem guarded_none (s : State) (r : Result) : guarded none s r = r := rfl
@[simp] theorem guarded_some (e : Status) (s : State) (r : Result) : guarded (some e) s r = raise e s := rfl

theorem raise_eq (e : Status) (s : State) : raise e s = .next (s.setRsp (some { status := e, digest := none })) := rfl
theorem respondOk_eq (d : Option Payload) (s : State) :
    respondOk d s = .next (s.setRsp (some { status := .ok, digest := d })) := rfl

/-- The counter test of R82 on numbers. -/
theorem lenWouldOverflow_iff (v : BitVec 64) : lenWouldOverflow v = true ↔ 2 ^ 64 ≤ v.toNat + 8 := by
  simp [lenWouldOverflow]; omega

/-- `LEN + 8` is exact when the test of R82 passes (R84). -/
theorem len_add_toNat {v : BitVec 64} (h : lenWouldOverflow v = false) : (v + 8).toNat = v.toNat + 8 := by
  have h' : ¬ 2 ^ 64 ≤ v.toNat + 8 := by rw [← lenWouldOverflow_iff, h]; simp
  rw [BitVec.toNat_add, show (8 : BitVec 64).toNat = 8 from rfl]
  omega

/-- `BUF`'s bytes depend on the written cells and the reset count alone. -/
theorem bufByte_congr {s t : State} (hb : s.buf = t.buf) (he : s.era = t.era) : bufByte s = bufByte t := by
  funext a
  simp [bufByte, hb, he]

@[simp] theorem bufByte_setH (s : State) (v : Chain) : bufByte (s.setH v) = bufByte s := id rfl
@[simp] theorem bufByte_setFill (s : State) (v : Fin 65) : bufByte (s.setFill v) = bufByte s := id rfl
@[simp] theorem bufByte_setLen (s : State) (v : BitVec 64) : bufByte (s.setLen v) = bufByte s := id rfl
@[simp] theorem bufByte_setSt (s : State) (v : Lifecycle) : bufByte (s.setSt v) = bufByte s := id rfl
@[simp] theorem bufByte_setRsp (s : State) (v : Option Response) : bufByte (s.setRsp v) = bufByte s := id rfl
@[simp] theorem bufByte_setInbox (s : State) (v : List HostInput) : bufByte (s.setInbox v) = bufByte s := id rfl

/-- Read after write on the machine's `BUF`. -/
theorem bufByte_write (s : State) (x : Nat) (v : Byte) (a : Nat) :
    bufByte (s.setBuf (s.buf.write x v)) a = if a = x then v else bufByte s a := by
  simp only [bufByte, State.setBuf_buf, State.setBuf_era, Memory.read_write]
  split <;> rfl

theorem memWrite1_inside {a : Nat} (h : a < 64) (v : Byte) (s : State) :
    memWrite1 a v s = .next (s.setBuf (s.buf.write a v)) := if_pos h

theorem memWrite1_outside {a : Nat} (h : 64 ≤ a) (v : Byte) (s : State) :
    memWrite1 a v s = .fault .bufOffsetOutside := if_neg (by omega)

theorem incFill_below {s : State} (h : s.fill.val < 64) : incFill s = s.setFill ⟨s.fill.val + 1, by omega⟩ :=
  dif_pos h

/-- Appending a byte while `FILL` is below 64: one cell written, `FILL` one more. -/
theorem appendByte_below {s : State} (h : s.fill.val < 64) (v : Byte) :
    appendByte v s =
      .next ((s.setBuf (s.buf.write s.fill.val v)).setFill ⟨s.fill.val + 1, by omega⟩) := by
  rw [appendByte, memWrite1_inside h, andThen_next, incFill_below (by simpa using h)]
  rfl

/-- With `FILL` at 64 there is no cell to append to. -/
theorem appendByte_full {s : State} (h : s.fill.val = 64) (v : Byte) :
    appendByte v s = .fault .bufOffsetOutside := by
  rw [appendByte, memWrite1_outside (by omega), andThen_fault]

/-- What appending a byte can do, when it answers a next state. -/
theorem appendByte_next {v : Byte} {s t : State} (h : appendByte v s = .next t) :
    ∃ hf : s.fill.val < 64,
      t = (s.setBuf (s.buf.write s.fill.val v)).setFill ⟨s.fill.val + 1, by omega⟩ := by
  by_cases hf : s.fill.val < 64
  · rw [appendByte_below hf] at h
    exact ⟨hf, by injection h with h; exact h.symm⟩
  · rw [appendByte_full (by omega)] at h
    cases h

/-- What a sequence of writes to `BUF` can change: `BUF` and `FILL`. -/
def OnlyBufAndFill (s t : State) : Prop := t = (s.setBuf t.buf).setFill t.fill

theorem OnlyBufAndFill.refl (s : State) : OnlyBufAndFill s s := rfl

theorem OnlyBufAndFill.trans {s t u : State} (h : OnlyBufAndFill s t) (h' : OnlyBufAndFill t u) :
    OnlyBufAndFill s u := by
  unfold OnlyBufAndFill at *
  rw [h', h]
  rfl

theorem onlyBufAndFill_append (s : State) (m : Memory) (f : Fin 65) :
    OnlyBufAndFill s ((s.setBuf m).setFill f) := rfl

theorem OnlyBufAndFill.fields {s t : State} (h : OnlyBufAndFill s t) :
    t.h = s.h ∧ t.len = s.len ∧ t.st = s.st ∧ t.rsp = s.rsp ∧ t.inbox = s.inbox ∧ t.era = s.era := by
  unfold OnlyBufAndFill at h
  rw [h]
  exact ⟨rfl, rfl, rfl, rfl, rfl, rfl⟩

/-- The zero fill of R90: the cells from `FILL` up to `n` become zero, `FILL` becomes `n`. -/
theorem zeroFill_spec {n fuel : Nat} {s : State} (hn : n ≤ 64) (hf : s.fill.val ≤ n) (hfuel : n ≤ s.fill.val + fuel) :
    ∃ t, zeroFill n fuel s = .next t ∧ OnlyBufAndFill s t ∧ t.fill.val = n ∧ (s.buf.wf → t.buf.wf) ∧
      ∀ a, t.buf.read a = if s.fill.val ≤ a ∧ a < n then some 0 else s.buf.read a := by
  induction fuel generalizing s with
  | zero =>
    refine ⟨s, rfl, .refl s, by omega, id, fun a => ?_⟩
    rw [if_neg (by omega)]
  | succ fuel ih =>
    unfold zeroFill
    split
    · rename_i hlt
      have h64 : s.fill.val < 64 := by omega
      rw [appendByte_below h64, andThen_next]
      obtain ⟨t, ht, ho, hfill, hwf, hread⟩ := ih (s := (s.setBuf (s.buf.write s.fill.val 0)).setFill
        ⟨s.fill.val + 1, by omega⟩) (by simp; omega) (by simp; omega)
      refine ⟨t, ht, (onlyBufAndFill_append _ _ _).trans ho, hfill, fun h => hwf (by simpa using Memory.wf_write h64 h),
        fun a => ?_⟩
      rw [hread]
      simp only [State.setFill_fill, State.setFill_buf, State.setBuf_buf, Memory.read_write]
      split
      · rw [if_pos (by omega)]
      · split
        · rw [if_pos (by omega)]
        · rw [if_neg (by omega)]
    · refine ⟨s, rfl, .refl s, by omega, id, fun a => ?_⟩
      rw [if_neg (by omega)]

/-- A run of byte writes inside `BUF`. -/
theorem memWriteBytes_spec {a : Nat} {vs : List Byte} {s : State} (h : a + vs.length ≤ 64) :
    ∃ t, memWriteBytes a vs s = .next t ∧ OnlyBufAndFill s t ∧ t.fill = s.fill ∧ (s.buf.wf → t.buf.wf) ∧
      ∀ x, t.buf.read x = if a ≤ x ∧ x < a + vs.length then some (vs.getD (x - a) 0) else s.buf.read x := by
  induction vs generalizing a s with
  | nil =>
    refine ⟨s, rfl, .refl s, rfl, id, fun x => ?_⟩
    rw [if_neg (by simp)]
  | cons v vs ih =>
    simp only [List.length_cons] at h
    rw [memWriteBytes, memWrite1_inside (by omega), andThen_next]
    obtain ⟨t, ht, ho, hfill, hwf, hread⟩ := ih (a := a + 1) (s := s.setBuf (s.buf.write a v)) (by omega)
    refine ⟨t, ht, ?_, by simpa using hfill, fun hw => hwf (by simpa using Memory.wf_write (by omega) hw), fun x => ?_⟩
    · exact (onlyBufAndFill_append s _ s.fill).trans ho
    · rw [hread]
      simp only [State.setBuf_buf, Memory.read_write, List.length_cons]
      by_cases hx : x = a
      · subst hx
        rw [if_neg (by omega), if_pos rfl, if_pos (by omega)]
        simp
      · by_cases hin : a + 1 ≤ x ∧ x < a + 1 + vs.length
        · rw [if_pos hin, if_pos (by omega), show x - a = (x - (a + 1)) + 1 by omega, List.getD_cons_succ]
        · rw [if_neg hin, if_neg hx, if_neg (by omega)]

@[simp] theorem be64_length (v : BitVec 64) : (be64 v).length = 8 := by simp [be64]

/-- The footer write of R43. -/
theorem memWrite8_spec {a : Nat} (h : a + 8 ≤ 64) (v : BitVec 64) (s : State) :
    ∃ t, memWrite8 a v s = .next t ∧ OnlyBufAndFill s t ∧ t.fill = s.fill ∧ (s.buf.wf → t.buf.wf) ∧
      ∀ x, t.buf.read x = if a ≤ x ∧ x < a + 8 then some ((be64 v).getD (x - a) 0) else s.buf.read x := by
  simpa [memWrite8] using memWriteBytes_spec (a := a) (vs := be64 v) (s := s) (by simpa using h)

@[simp] theorem bufBlock_length (s : State) : (bufBlock s).length = 64 := by simp [bufBlock]

@[simp] theorem bufBlock_setH (s : State) (v : Chain) : bufBlock (s.setH v) = bufBlock s := id rfl
@[simp] theorem bufBlock_setFill (s : State) (v : Fin 65) : bufBlock (s.setFill v) = bufBlock s := id rfl
@[simp] theorem bufBlock_setLen (s : State) (v : BitVec 64) : bufBlock (s.setLen v) = bufBlock s := id rfl
@[simp] theorem bufBlock_setSt (s : State) (v : Lifecycle) : bufBlock (s.setSt v) = bufBlock s := id rfl
@[simp] theorem bufBlock_setRsp (s : State) (v : Option Response) : bufBlock (s.setRsp v) = bufBlock s := id rfl
@[simp] theorem bufBlock_setInbox (s : State) (v : List HostInput) : bufBlock (s.setInbox v) = bufBlock s := id rfl

theorem bufBlock_congr {s t : State} (h : ∀ a, a < 64 → bufByte s a = bufByte t a) : bufBlock s = bufBlock t := by
  simp only [bufBlock]
  exact List.map_congr_left fun a ha => h a (List.mem_range.1 ha)

end Sys2Proof.Machine
end

