-- ==== Sys2Proof/Laws/Padding.lean ====
section
/-!
SUPPORT. What the Accepting path of `FINALIZE` does (R90 to R92), once for the one-block case and once for the two-block
case: the bytes of the blocks compressed, and the state left.
-/

namespace Sys2Proof.Machine

@[simp] theorem pending_length (s : State) : (pending s).length = s.fill.val := by simp [pending]

theorem pending_getD {s : State} {a : Nat} (h : a < s.fill.val) : (pending s).getD a 0 = bufByte s a := by
  simp [pending, List.getD, h]

theorem getD_append_left' {xs ys : List Byte} {a : Nat} (h : a < xs.length) : (xs ++ ys).getD a 0 = xs.getD a 0 := by
  simp [List.getD, List.getElem?_append, h]

theorem getD_append_right' {xs ys : List Byte} {a : Nat} (h : xs.length ≤ a) :
    (xs ++ ys).getD a 0 = ys.getD (a - xs.length) 0 := by
  simp [List.getD, List.getElem?_append, Nat.not_lt.2 h]

theorem getD_replicate_zero (n a : Nat) : (List.replicate n (0 : Byte)).getD a 0 = 0 := by
  simp only [List.getD, List.getElem?_replicate]
  split <;> rfl

/-- A block is known by its 64 bytes. -/
theorem bufBlock_eq {s : State} {b : Block} (hl : b.length = 64) (h : ∀ a, a < 64 → bufByte s a = b.getD a 0) :
    bufBlock s = b := by
  refine List.ext_getElem (by simp [hl]) fun i h1 h2 => ?_
  have hi : i < 64 := by simpa using h1
  have := h i hi
  simp only [bufBlock, List.getElem_map, List.getElem_range, this]
  simp [List.getD, h2]

/-- A written cell reads as the byte written. -/
theorem bufByte_of_read {s : State} {a : Nat} {v : Byte} (h : s.buf.read a = some v) : bufByte s a = v := by
  simp [bufByte, h]

/-- A cell that two states hold alike reads alike. -/
theorem bufByte_of_read_eq {s t : State} {a : Nat} (h : t.buf.read a = s.buf.read a) (he : t.era = s.era) :
    bufByte t a = bufByte s a := by
  simp [bufByte, h, he]

/-- The state the Accepting path leaves: chaining value `h`, the cells `m`. -/
def closedState (s : State) (h : Chain) (m : Memory) : State := (((s.setH h).setBuf m).setFill 0).setSt .finalized

@[simp] theorem closedState_h (s : State) (h : Chain) (m : Memory) : (closedState s h m).h = h := id rfl
@[simp] theorem closedState_buf (s : State) (h : Chain) (m : Memory) : (closedState s h m).buf = m := id rfl
@[simp] theorem closedState_fill (s : State) (h : Chain) (m : Memory) : (closedState s h m).fill = 0 := id rfl
@[simp] theorem closedState_len (s : State) (h : Chain) (m : Memory) : (closedState s h m).len = s.len := id rfl
@[simp] theorem closedState_st (s : State) (h : Chain) (m : Memory) : (closedState s h m).st = .finalized := id rfl
@[simp] theorem closedState_rsp (s : State) (h : Chain) (m : Memory) : (closedState s h m).rsp = s.rsp := id rfl
@[simp] theorem closedState_inbox (s : State) (h : Chain) (m : Memory) : (closedState s h m).inbox = s.inbox := id rfl
@[simp] theorem closedState_era (s : State) (h : Chain) (m : Memory) : (closedState s h m).era = s.era := id rfl

/-- The state after the Accepting path and a response, as a record. Cite it, or `compressState_eq`, where `rfl` would have
to compare two terms that hold `compress`: stated over a variable chaining value they are cheap (and proved by `id rfl`,
so that simp uses them as equations and the kernel is never asked to unfold `compress`). -/
theorem closedState_setRsp (s : State) (h : Chain) (m : Memory) (r : Option Response) :
    (closedState s h m).setRsp r = { s with h := h, buf := m, fill := 0, st := .finalized, rsp := r } := id rfl

theorem bufByte_closedState (s : State) (h : Chain) (m : Memory) :
    bufByte (closedState s h m) = bufByte { s with buf := m } := id rfl

theorem bufBlock_closedState (s : State) (h : Chain) (m : Memory) :
    bufBlock (closedState s h m) = bufBlock { s with buf := m } := by
  simp only [bufBlock, bufByte_closedState]

/-- The state after the 64th byte of a block, as a record: `h` the new chaining value, `m` the cells. -/
theorem compressState_eq (s : State) (h : Chain) (m : Memory) (f : Fin 65) (l : BitVec 64) (r : Option Response) :
    ((((s.setBuf m).setFill f).setLen l).setH h |>.setFill 0).setRsp r =
      { s with h := h, buf := m, fill := 0, len := l, rsp := r } := id rfl

/-- After `0x80` and the zero fill up to offset 56: the footer, the last compression, the end of the session. -/
theorem close_tail {s u : State} {len : BitVec 64} {m : List Byte} (hu : u.fill.val ≤ 56)
    (hm : m.length = 56) (hlow : ∀ a, a < u.fill.val → bufByte u a = m.getD a 0)
    (hzero : ∀ a, u.fill.val ≤ a → a < 56 → m.getD a 0 = 0) (hlen : s.len = len) (he : u.era = s.era)
    (hrsp : u.rsp = s.rsp) (hin : u.inbox = s.inbox) (hl : u.len = s.len) :
    ∃ m', (andThen (zeroFill 56 56 u) fun s3 => andThen (memWrite8 56 len s3) fun s4 =>
        .next ((compressAndRewind s4).setSt .finalized)) = .next (closedState s (compress u.h (m ++ be64 len)) m') ∧
      (u.buf.wf → m'.wf) ∧
      bufBlock (closedState s (compress u.h (m ++ be64 len)) m') = m ++ be64 len ∧
      (∀ a, m'.read a = if 56 ≤ a ∧ a < 64 then some ((be64 len).getD (a - 56) 0)
        else if u.fill.val ≤ a ∧ a < 56 then some 0 else u.buf.read a) := by
  obtain ⟨v, hv, hov, hfv, hwv, hrv⟩ := zeroFill_spec (n := 56) (fuel := 56) (s := u) (by omega) hu (by omega)
  obtain ⟨x, hx, hox, hfx, hwx, hrx⟩ := memWrite8_spec (a := 56) (by omega) len v
  obtain ⟨hxh, hxl, hxst, hxr, hxi, hxe⟩ := (hov.trans hox).fields
  have hread : ∀ a, x.buf.read a = if 56 ≤ a ∧ a < 64 then some ((be64 len).getD (a - 56) 0)
        else if u.fill.val ≤ a ∧ a < 56 then some 0 else u.buf.read a := by
    intro a
    rw [hrx, hrv]
  have hblock : bufBlock x = m ++ be64 len := by
    refine bufBlock_eq (by simp [hm]) fun a ha => ?_
    have := hread a
    by_cases h1 : 56 ≤ a
    · rw [if_pos ⟨h1, ha⟩] at this
      rw [bufByte_of_read this, getD_append_right' (by omega), hm]
    · rw [if_neg (by omega)] at this
      rw [getD_append_left' (by omega)]
      by_cases h2 : u.fill.val ≤ a
      · rw [if_pos (by omega)] at this
        rw [bufByte_of_read this, hzero a h2 (by omega)]
      · rw [if_neg (by omega)] at this
        rw [bufByte_of_read_eq this hxe, hlow a (by omega)]
  have hst : (compressAndRewind x).setSt .finalized = closedState s (compress u.h (m ++ be64 len)) x.buf := by
    rw [compressAndRewind, compressBuf, hblock, hxh]
    obtain ⟨_, _, _, _, _, _, _, _⟩ := x
    obtain ⟨_, _, _, _, _, _, _, _⟩ := s
    simp_all [closedState, State.setH, State.setFill, State.setBuf, State.setSt]
  refine ⟨x.buf, ?_, hwx ∘ hwv, ?_, hread⟩
  · rw [hv, andThen_next, hx, andThen_next, hst]
  · rw [← hblock]
    exact bufBlock_congr fun a _ => bufByte_of_read_eq (by rw [closedState_buf]) (by rw [hxe, he, closedState_era])

/-- `FINALIZE`'s Accepting path when at most 55 bytes are pending (R91, R92): one compression. -/
theorem closeSession_oneBlock {s : State} (hp : s.fill.val ≤ 55) :
    ∃ m, closeSession s = .next (closedState s (compress s.h (onlyBlock (pending s) s.len)) m) ∧
      (s.buf.wf → m.wf) ∧
      bufBlock (closedState s (compress s.h (onlyBlock (pending s) s.len)) m) = onlyBlock (pending s) s.len ∧
      (∀ a, a < s.fill.val ∨ 64 ≤ a → m.read a = s.buf.read a) ∧
      ∀ a, s.fill.val ≤ a → a < 64 → m.read a ≠ none := by
  have h64 : s.fill.val < 64 := by omega
  rw [closeSession, appendByte_below h64, andThen_next]
  generalize hu : (s.setBuf (s.buf.write s.fill.val 0x80)).setFill ⟨s.fill.val + 1, by omega⟩ = u
  have hfu : u.fill.val = s.fill.val + 1 := by rw [← hu]; rfl
  have hbu : ∀ a, bufByte u a = if a = s.fill.val then 0x80 else bufByte s a := by
    intro a
    rw [← hu, bufByte_setFill, bufByte_write]
  have hru : ∀ a, u.buf.read a = if a = s.fill.val then some 0x80 else s.buf.read a := by
    intro a
    rw [← hu]
    exact Memory.read_write ..
  have hsp : spillBlock u = .next u := if_neg (by omega)
  rw [hsp, andThen_next]
  have hlow : ∀ a, a < u.fill.val →
      bufByte u a = (pending s ++ 0x80 :: List.replicate (55 - s.fill.val) 0x00).getD a 0 := by
    intro a ha
    rw [hbu]
    by_cases h : a = s.fill.val
    · subst h
      rw [if_pos rfl, getD_append_right' (by simp)]
      simp
    · rw [if_neg h, getD_append_left' (by simp; omega), pending_getD (by omega)]
  have hzero : ∀ a, u.fill.val ≤ a → a < 56 →
      (pending s ++ 0x80 :: List.replicate (55 - s.fill.val) 0x00).getD a 0 = 0 := by
    intro a ha ha'
    rw [getD_append_right' (by simp; omega), show a - (pending s).length = (a - s.fill.val - 1) + 1 by simp; omega,
      List.getD_cons_succ, getD_replicate_zero]
  obtain ⟨m', h1, h2, h3, h4⟩ := close_tail (s := s) (u := u) (len := s.len) (by omega) (by simp; omega) hlow hzero rfl
    (by rw [← hu]; rfl) (by rw [← hu]; rfl) (by rw [← hu]; rfl) (by rw [← hu]; rfl)
  have huh : u.h = s.h := by rw [← hu]; rfl
  rw [huh] at h1 h3
  refine ⟨m', by simpa [onlyBlock] using h1, fun hw => h2 ?_, by simpa [onlyBlock] using h3, ?_, ?_⟩
  · rw [← hu]
    exact Memory.wf_write h64 hw
  · intro a ha
    rw [h4, if_neg (by omega), if_neg (by omega), hru, if_neg (by omega)]
  · intro a ha ha'
    rw [h4]
    split
    · simp
    · split
      · simp
      · rw [hru, if_pos (by omega)]
        simp

/-- `FINALIZE`'s Accepting path when 56 to 63 bytes are pending (R91, R92): two compressions. -/
theorem closeSession_twoBlocks {s : State} (hp : 56 ≤ s.fill.val) (h64 : s.fill.val < 64) :
    ∃ m, closeSession s =
        .next (closedState s (compress (compress s.h (spillFirst (pending s))) (spillSecond s.len)) m) ∧
      (s.buf.wf → m.wf) ∧
      bufBlock (closedState s (compress (compress s.h (spillFirst (pending s))) (spillSecond s.len)) m) =
        spillSecond s.len ∧
      (∀ a, 64 ≤ a → m.read a = s.buf.read a) ∧
      ∀ a, a < 64 → m.read a ≠ none := by
  rw [closeSession, appendByte_below h64, andThen_next]
  generalize hu : (s.setBuf (s.buf.write s.fill.val 0x80)).setFill ⟨s.fill.val + 1, by omega⟩ = u
  have hfu : u.fill.val = s.fill.val + 1 := by rw [← hu]; rfl
  have hbu : ∀ a, bufByte u a = if a = s.fill.val then 0x80 else bufByte s a := by
    intro a
    rw [← hu, bufByte_setFill, bufByte_write]
  obtain ⟨v, hv, hov, hfv, hwv, hrv⟩ := zeroFill_spec (n := 64) (fuel := 64) (s := u) (by omega) (by omega) (by omega)
  obtain ⟨hvh, hvl, hvst, hvr, hvi, hve⟩ := hov.fields
  have huw : s.buf.wf → u.buf.wf := by
    rw [← hu]
    exact Memory.wf_write h64
  have hru : ∀ a, s.fill.val < a → u.buf.read a = s.buf.read a := by
    intro a ha
    rw [← hu]
    exact Memory.read_write_other _ _ (by omega)
  have huf : u.h = s.h ∧ u.len = s.len ∧ u.rsp = s.rsp ∧ u.inbox = s.inbox ∧ u.era = s.era := by
    rw [← hu]
    exact ⟨rfl, rfl, rfl, rfl, rfl⟩
  obtain ⟨huh, hul, hur, hui, hue⟩ := huf
  have hblock : bufBlock v = spillFirst (pending s) := by
    refine bufBlock_eq (by simp [spillFirst]; omega) fun a ha => ?_
    have hra := hrv a
    by_cases h1 : u.fill.val ≤ a
    · rw [if_pos (by omega)] at hra
      rw [bufByte_of_read hra, spillFirst, getD_append_right' (by simp; omega),
        show a - (pending s).length = (a - s.fill.val - 1) + 1 by simp; omega, List.getD_cons_succ, getD_replicate_zero]
    · rw [if_neg (by omega)] at hra
      rw [bufByte_of_read_eq hra hve, hbu, spillFirst]
      by_cases h : a = s.fill.val
      · subst h
        rw [if_pos rfl, getD_append_right' (by simp)]
        simp
      · rw [if_neg h, getD_append_left' (by simp; omega), pending_getD (by omega)]
  have hsp : spillBlock u = .next (compressAndRewind v) := by
    rw [spillBlock, if_pos (by omega), hv, andThen_next]
  rw [hsp, andThen_next]
  obtain ⟨m', h1, h2, h3, h4⟩ := close_tail (s := s) (u := compressAndRewind v) (len := s.len)
    (m := List.replicate 56 0x00) (by simp) (by simp) (by simp) (by intro a _ _; exact getD_replicate_zero _ _) rfl
    (by simp [hve, hue]) (by simp [hvr, hur]) (by simp [hvi, hui]) (by simp [hvl, hul])
  have hch : (compressAndRewind v).h = compress s.h (spillFirst (pending s)) := by
    rw [compressAndRewind_h, hblock, hvh, huh]
  rw [hch] at h1 h3
  refine ⟨m', by simpa [spillSecond] using h1, fun hw => h2 ?_, by simpa [spillSecond] using h3, ?_, ?_⟩
  · rw [compressAndRewind_buf]
    exact hwv (huw hw)
  · intro a ha
    rw [h4, if_neg (by omega), if_neg (by omega), compressAndRewind_buf, hrv, if_neg (by omega), hru a (by omega)]
  · intro a ha
    rw [h4]
    split
    · simp
    · rw [if_pos (by simp; omega)]
      simp

end Sys2Proof.Machine
end

