-- ==== Sys2Proof/Laws/PerInstr.lean ====
section
/-!
SUPPORT. Statements made per command. `RowSelectsEncoding`: the row of the opcode map (R61) with the command's mnemonic
selects the command's word.
-/

namespace Sys2Proof.Laws.RowSelectsEncoding

/-- R61: `w` selects the row whose `(w & mask) = match`; a command's encoding selects the row of its name. -/
def Statement (i : Instr) : Prop := ∃ r ∈ opMap, r.mnemonic = i.mnemonic ∧ r.selects (encode i) = true

theorem init : Statement .init := by unfold Statement; decide

/-- The mask `0xFF00` leaves `op` and `z`, which do not depend on the byte. -/
theorem feed (b : Byte) : Statement (.feed b) := by
  refine ⟨_, List.mem_cons_of_mem _ List.mem_cons_self, rfl, ?_⟩
  simp only [OpRow.selects, decide_eq_true_eq]
  refine BitVec.eq_of_getLsbD_eq fun j hj => ?_
  simp only [encode, opcode, dataByte, BitVec.getLsbD_and, BitVec.getLsbD_append]
  interval_cases j <;> simp

theorem finalize : Statement .finalize := by unfold Statement; decide
theorem render : Statement .render := by unfold Statement; decide
theorem digest : Statement .digest := by unfold Statement; decide

end Sys2Proof.Laws.RowSelectsEncoding
end

