-- ==== Sys2Proof/Laws/Step.lean ====
section
/-!
SUPPORT. What a step can do, once: one case per host input. And that a command neither reads nor writes the host's inputs.
-/

namespace Sys2Proof.Machine

/-- What a step that answers a next state did. -/
theorem step_cases {s t : State} (h : step s = .next t) :
    (s.inbox = [] ∧ t = noInput s) ∨
    (∃ rest, s.inbox = .idle :: rest ∧ t = noInput (s.setInbox rest)) ∨
    (∃ rest, (s.inbox = .rst :: rest ∨ ∃ w, s.inbox = .commandThenRst w :: rest) ∧ t = applyRst (s.setInbox rest)) ∨
    (∃ w rest why, s.inbox = .command w :: rest ∧ decode w = .illegal why ∧
      t = (s.setInbox rest).setRsp (some { status := .illegalCommand, digest := none })) ∨
    (∃ w rest i, s.inbox = .command w :: rest ∧ decode w = .command i ∧ exec i (s.setInbox rest) = .next t) := by
  unfold step at h
  split at h
  · rename_i hi
    exact .inl ⟨hi, by injection h with h; exact h.symm⟩
  · rename_i rest hi
    exact .inr (.inl ⟨rest, hi, by injection h with h; exact h.symm⟩)
  · rename_i rest hi
    exact .inr (.inr (.inl ⟨rest, .inl hi, by injection h with h; exact h.symm⟩))
  · rename_i w rest hi
    exact .inr (.inr (.inl ⟨rest, .inr ⟨w, hi⟩, by injection h with h; exact h.symm⟩))
  · rename_i w rest hi
    split at h
    · rename_i i hd
      exact .inr (.inr (.inr (.inr ⟨w, rest, i, hi, hd, h⟩)))
    · rename_i why hd
      rw [raise_eq] at h
      exact .inr (.inr (.inr (.inl ⟨w, rest, why, hi, hd, by injection h with h; exact h.symm⟩)))

/-- A step on a word that decodes. -/
theorem step_command {s : State} {w : CmdWord} {rest : List HostInput} {i : Instr} (hi : s.inbox = .command w :: rest)
    (hd : decode w = .command i) : step s = exec i (s.setInbox rest) := by
  simp [step, hi, hd]

/-- A step on a word that does not. -/
theorem step_illegal {s : State} {w : CmdWord} {rest : List HostInput} {why : Illegal}
    (hi : s.inbox = .command w :: rest) (hd : decode w = .illegal why) :
    step s = raise .illegalCommand (s.setInbox rest) := by
  simp [step, hi, hd]

/-- A result with the host's inputs replaced. -/
def withInbox (x : List HostInput) : Result → Result
  | .next s => .next (s.setInbox x)
  | .fault f => .fault f
  | .refused f => .refused f

@[simp] theorem withInbox_next (x : List HostInput) (s : State) : withInbox x (.next s) = .next (s.setInbox x) := rfl

@[simp] theorem setInbox_setInbox (s : State) (x y : List HostInput) : (s.setInbox x).setInbox y = s.setInbox y := rfl

theorem withInbox_andThen {r : Result} {k : State → Result} {x : List HostInput}
    (hk : ∀ s : State, k (s.setInbox x) = withInbox x (k s)) :
    andThen (withInbox x r) k = withInbox x (andThen r k) := by
  cases r with
  | next s => exact hk s
  | fault f => rfl
  | refused f => rfl

theorem withInbox_andThen_of {r r' : Result} {k : State → Result} {x : List HostInput} (hr : r' = withInbox x r)
    (hk : ∀ s : State, k (s.setInbox x) = withInbox x (k s)) : andThen r' k = withInbox x (andThen r k) := by
  rw [hr, withInbox_andThen hk]

theorem memWrite1_setInbox (a : Nat) (v : Byte) (s : State) (x : List HostInput) :
    memWrite1 a v (s.setInbox x) = withInbox x (memWrite1 a v s) := by
  unfold memWrite1
  split <;> rfl

theorem incFill_setInbox (s : State) (x : List HostInput) : incFill (s.setInbox x) = (incFill s).setInbox x := by
  by_cases h : s.fill.val < 64
  · rw [incFill_below h, incFill_below (s := s.setInbox x) h]
    rfl
  · rw [incFill, incFill, dif_neg h, dif_neg (show ¬ (s.setInbox x).fill.val < 64 from h)]

theorem appendByte_setInbox (v : Byte) (s : State) (x : List HostInput) :
    appendByte v (s.setInbox x) = withInbox x (appendByte v s) :=
  withInbox_andThen_of (memWrite1_setInbox s.fill.val v s x) fun s => congrArg _ (incFill_setInbox s x)

theorem zeroFill_setInbox (n fuel : Nat) (s : State) (x : List HostInput) :
    zeroFill n fuel (s.setInbox x) = withInbox x (zeroFill n fuel s) := by
  induction fuel generalizing s with
  | zero => rfl
  | succ fuel ih =>
    rw [zeroFill, zeroFill, State.setInbox_fill]
    by_cases h : s.fill.val < n
    · rw [if_pos h, if_pos h]
      exact withInbox_andThen_of (appendByte_setInbox 0 s x) ih
    · rw [if_neg h, if_neg h, withInbox_next]

theorem memWriteBytes_setInbox (a : Nat) (vs : List Byte) (s : State) (x : List HostInput) :
    memWriteBytes a vs (s.setInbox x) = withInbox x (memWriteBytes a vs s) := by
  induction vs generalizing a s with
  | nil => rfl
  | cons v vs ih => exact withInbox_andThen_of (memWrite1_setInbox a v s x) (ih (a + 1))

theorem compressAndRewind_setInbox (s : State) (x : List HostInput) :
    compressAndRewind (s.setInbox x) = (compressAndRewind s).setInbox x := by
  simp only [compressAndRewind, compressBuf, State.setInbox_h, bufBlock, bufByte_setInbox]
  rfl

theorem compressIfFull_setInbox (s : State) (x : List HostInput) :
    compressIfFull (s.setInbox x) = (compressIfFull s).setInbox x := by
  rw [compressIfFull, compressIfFull, State.setInbox_fill]
  by_cases h : s.fill.val = 64
  · rw [if_pos h, if_pos h, compressAndRewind_setInbox]
  · rw [if_neg h, if_neg h]

theorem spillBlock_setInbox (s : State) (x : List HostInput) :
    spillBlock (s.setInbox x) = withInbox x (spillBlock s) := by
  rw [spillBlock, spillBlock, State.setInbox_fill]
  by_cases h : 56 < s.fill.val
  · rw [if_pos h, if_pos h]
    exact withInbox_andThen_of (zeroFill_setInbox 64 64 s x) fun s => by
      rw [compressAndRewind_setInbox, withInbox_next]
  · rw [if_neg h, if_neg h, withInbox_next]

theorem closeSession_setInbox (s : State) (x : List HostInput) :
    closeSession (s.setInbox x) = withInbox x (closeSession s) := by
  refine withInbox_andThen_of (appendByte_setInbox 0x80 s x) fun s1 => ?_
  refine withInbox_andThen_of (spillBlock_setInbox s1 x) fun s2 => ?_
  refine withInbox_andThen_of (zeroFill_setInbox 56 56 s2 x) fun s3 => ?_
  refine withInbox_andThen_of (memWriteBytes_setInbox 56 _ s3 x) fun s4 => ?_
  rw [compressAndRewind_setInbox]
  rfl

/-- A command does the same whatever the host's further inputs are, and leaves them alone. -/
theorem exec_setInbox (i : Instr) (s : State) (x : List HostInput) :
    exec i (s.setInbox x) = withInbox x (exec i s) := by
  cases i with
  | init => rfl
  | feed b =>
    simp only [exec, execFeed, State.setInbox_st]
    cases inputGuard s.st with
    | some e => rfl
    | none =>
      rw [guarded_none, guarded_none]
      by_cases h : lenWouldOverflow s.len = true
      · rw [if_pos h, if_pos (show lenWouldOverflow (s.setInbox x).len = true from h)]
        rfl
      · rw [if_neg h, if_neg (show ¬ lenWouldOverflow (s.setInbox x).len = true from h)]
        refine withInbox_andThen_of (appendByte_setInbox b s x) fun s1 => ?_
        have hc : compressIfFull ((s1.setInbox x).setLen ((s1.setInbox x).len + 8)) =
            (compressIfFull (s1.setLen (s1.len + 8))).setInbox x :=
          compressIfFull_setInbox (s1.setLen (s1.len + 8)) x
        rw [hc]
        rfl
  | finalize =>
    simp only [exec, execFinalize, State.setInbox_st]
    cases inputGuard s.st with
    | some e => rfl
    | none => exact withInbox_andThen_of (closeSession_setInbox s x) fun s1 => rfl
  | render =>
    simp only [exec, execRender, State.setInbox_st]
    cases renderGuard s.st <;> rfl
  | digest =>
    simp only [exec, execDigest, State.setInbox_st]
    cases digestGuard s.st with
    | some e => rfl
    | none =>
      refine withInbox_andThen_of (r := closeIfAccepting s) ?_ fun s1 => rfl
      simp only [closeIfAccepting, State.setInbox_st]
      cases s.st with
      | accepting => exact closeSession_setInbox s x
      | overflowed => rfl
      | finalized => rfl

end Sys2Proof.Machine
end

