-- ==== Sys2Proof/Tests/Slice0.lean ====
section
/-!
SUPPORT. Tests against the spec's own vectors (95_test_vectors.md, and the examples of the rules), and for every statement
with hypotheses a theorem that shows states and operands meeting them all together.
-/

namespace Sys2Proof.Tests

open Sys2Proof.Machine

/-- A value read off the next state. -/
def onNext {α : Type} (r : Result) (f : State → α) : Option α :=
  match r with
  | .next s => some (f s)
  | .fault _ => none
  | .refused _ => none

/-- Cells `0, 1, ...` holding the bytes. -/
def cells (bs : List Byte) : Memory := bs.zipIdx.map fun (b, a) => (a, b)

/-- An accepting state with the bytes pending in a first block. -/
def pendingState (bs : List Byte) (fill : Fin 65) (len : BitVec 64) : State :=
  { State.reset with buf := cells bs, fill := fill, len := len }

/-- The bytes of 32-bit words, most significant first. -/
def wordBytes (ws : List Word) : Block := ws.flatMap fun w => (List.range 4).map fun i => w.extractLsb' (24 - 8 * i) 8

/-! ## Well-formedness: each check refuses a word it is there to refuse -/

theorem test_opLegal_refuses : opLegal 0x0000 = false ∧ opLegal 0x0FFF = false ∧ opLegal 0x6000 = false ∧
    opLegal 0xFFFF = false ∧ opLegal 0x1000 = true ∧ opLegal 0x5FFF = true := by decide
theorem test_reservedZero_refuses : reservedZero 0x2161 = false ∧ reservedZero 0x5100 = false ∧
    reservedZero 0x20FF = true := by decide
theorem test_dataZeroUnlessFeed_refuses : dataZeroUnlessFeed 0x1001 = false ∧ dataZeroUnlessFeed 0x3001 = false ∧
    dataZeroUnlessFeed 0x40FF = false ∧ dataZeroUnlessFeed 0x2001 = true := by decide
theorem test_wordLegal_refuses : wordLegal 0x6000 = false ∧ wordLegal 0x2161 = false ∧ wordLegal 0x3001 = false ∧
    wordLegal 0x20FF = true := by decide
theorem test_wellFormed : Instr.WellFormed (.feed 0xFF) = true := by decide

/-! ## Decoding: words written out from R61's binary column, and the decode vectors after V49 -/

theorem test_decode_init : decode 0b0001000000000000 = .command .init := by decide
theorem test_decode_feed : decode 0b0010000001100001 = .command (.feed 0x61) := by decide
theorem test_decode_feed_last : decode 0b0010000011111111 = .command (.feed 0xff) := by decide
theorem test_decode_finalize : decode 0b0011000000000000 = .command .finalize := by decide
theorem test_decode_render : decode 0b0100000000000000 = .command .render := by decide
theorem test_decode_digest : decode 0b0101000000000000 = .command .digest := by decide
theorem test_decode_illegal :
    [0x0000, 0x6000, 0xF000].map decode = List.replicate 3 (.illegal .opcode) ∧
    [0x2161, 0x5100, 0xFFFF].map decode = List.replicate 3 (.illegal .reservedField) ∧
    [0x1001, 0x3001, 0x40FF].map decode = List.replicate 3 (.illegal .dataField) := by decide
theorem test_encode : (assemble [.init, .feed 0x61, .finalize, .render, .digest]) =
    [0x1000, 0x2061, 0x3000, 0x4000, 0x5000] := by decide
theorem test_decodeTableWord : decodeTableWord 16 0x2061 = some (.feed 0x61) ∧ decodeTableWord 16 0x0000 = none := by
  decide

/-! ## Primitives and the compression function (V10 to V24) -/

/-- V12a to V12k. -/
theorem test_rotl32 : rotl32 0x80000001 1 = 0x00000003 ∧ rotl32 0x00000001 31 = 0x80000000 ∧
    rotl32 0x12345678 5 = 0x468ACF02 ∧ rotl32 0x12345678 30 = 0x048D159E := by decide
/-- V12l to V12o. -/
theorem test_add32 : add32 [0xFFFFFFFF, 0x00000001] = 0 ∧
    add32 [0xE8A4602C, 0x98BADCFE, 0xC3D2E1F0, 0x61626380, 0x5A827999] = 0x0116FC33 := by decide
/-- V12r to V12t, and V12u, V12v on words where the functions differ. -/
theorem test_stageFn : stageFn 0 0xEFCDAB89 0x98BADCFE 0x10325476 = 0x98BADCFE ∧
    stageFn 1 0xEFCDAB89 0x98BADCFE 0x10325476 = 0x67452301 ∧
    stageFn 2 0xEFCDAB89 0x98BADCFE 0x10325476 = 0x98BADCFE ∧
    stageFn 0 0x00000000 0x12345678 0x9ABCDEF0 = 0x9ABCDEF0 ∧
    stageFn 2 0x00000000 0xFF00FF00 0x0F0F0F0F = 0x0F000F00 := by decide
/-- V12x, V12z. -/
theorem test_byte_order : be32 0x61 0x62 0x63 0x80 = 0x61626380 ∧
    be64 0x0123456789ABCC18 = [0x01, 0x23, 0x45, 0x67, 0x89, 0xAB, 0xCC, 0x18] := by decide

/-- The padded block of `"abc"` (V10). -/
def abcBlock : Block := wordBytes (0x61626380 :: List.replicate 14 0 ++ [0x00000018])

/-- V10: schedule words on both sides of the expansion's start, and the last. -/
theorem test_schedule_abc : [0, 15, 16, 18, 19, 47, 79].map ((schedule abcBlock).getD · 0) =
    [0x61626380, 0x00000018, 0xc2c4c700, 0x00000030, 0x85898e01, 0x74458547, 0x822e0879] := by decide +kernel
/-- V11: after round 0, and on both sides of each change of stage, the working variables (`A`, then all). -/
theorem test_rounds_abc : [0, 19, 20, 39, 40, 59, 60].map (fun t => (afterRounds iv abcBlock (t + 1)).a) =
      [0x0116fc33, 0xfd9e1d7d, 0x1a37b0ca, 0x32de1cba, 0xfc87dedf, 0x3f52de5a, 0xd756c147] ∧
    afterRounds iv abcBlock 80 =
      { a := 0x42541b35, b := 0x5738d5e1, c := 0x21834873, d := 0x681e6df6, e := 0xd8fdf6ad } := by decide +kernel
/-- V20, V22, V24. -/
theorem test_compress_corner_blocks :
    compress iv (List.replicate 64 0x00) =
      { h0 := 0x92b404e5, h1 := 0x56588ced, h2 := 0x6c1acd4e, h3 := 0xbf053f68, h4 := 0x09f73a93 } ∧
    compress iv ((List.range 64).map (BitVec.ofNat 8)) =
      { h0 := 0xb9ac757b, h1 := 0xbc297925, h2 := 0x2e227274, h3 := 0x06872f94, h4 := 0xcbea56a1 } ∧
    compress { h0 := -1, h1 := -1, h2 := -1, h3 := -1, h4 := -1 } (List.replicate 64 0xFF) =
      { h0 := 0x3f48159b, h1 := 0x2dce51fa, h2 := 0x8a1e930a, h3 := 0x02083b68, h4 := 0xef70d6e8 } := by
  decide +kernel
/-- R22, V2: the whole function on `"test"`. -/
theorem test_sha1 : payload (sha1 [0x74, 0x65, 0x73, 0x74]) = 0xa94a8fe5ccb19ba61c4c0873d391e987982fbbd3 := by
  decide +kernel
/-- R122's example with a leading zero digit (V31, n = 64), and its first eight characters. -/
theorem test_hex40 : hex40 0x0098ba824b5c16427bd7a1122a5a442a25ec644d =
    "0098ba824b5c16427bd7a1122a5a442a25ec644d".toList := by decide +kernel

/-! ## The commands, one step each -/

/-- V47. -/
theorem test_init : onNext (exec .init { pendingState [0x61] 1 8 with st := .finalized, h := ⟨1, 2, 3, 4, 5⟩ }) id =
    some { State.reset with buf := [(0, 0x61)], rsp := some { status := .ok, digest := none } } := by decide
/-- V41 (= V22). -/
theorem test_feed_fills_block :
    onNext (exec (.feed 0x3f) (pendingState ((List.range 63).map (BitVec.ofNat 8)) 63 0x1f8))
      (fun t => (t.h, t.fill, t.len, t.st)) =
      some ({ h0 := 0xb9ac757b, h1 := 0xbc297925, h2 := 0x2e227274, h3 := 0x06872f94, h4 := 0xcbea56a1 }, 0, 0x200,
        .accepting) := by decide +kernel
/-- V48: refused, `BUF[63]` not written. -/
theorem test_feed_overflow :
    onNext (exec (.feed 0xbb) { State.reset with fill := 63, len := 0xFFFFFFFFFFFFFFF8 }) id =
      some { State.reset with fill := 63, len := 0xFFFFFFFFFFFFFFF8, st := .overflowed,
                              rsp := some { status := .overflowed, digest := none } } := by decide
/-- V33a: all eight footer bytes. -/
theorem test_finalize_one_block :
    onNext (exec .finalize (pendingState [0x61, 0x62, 0x63] 3 0x0123456789ABCC18))
      (fun t => (t.h, t.fill, t.len, t.st, bufBlock t)) =
      some ({ h0 := 0xedec9baa, h1 := 0x33070d7b, h2 := 0x1c9e7629, h3 := 0x096377a3, h4 := 0x8ae3a0ee }, 0,
        0x0123456789ABCC18, .finalized,
        wordBytes (0x61626380 :: List.replicate 13 0 ++ [0x01234567, 0x89abcc18])) := by decide +kernel
/-- V33b: two compressions from `FILL = 63`. -/
theorem test_finalize_two_blocks :
    onNext (exec .finalize (pendingState (List.replicate 63 0) 63 0xFFFFFFFFFFFFFFF8))
      (fun t => (t.h, t.fill, t.st, bufBlock t)) =
      some ({ h0 := 0x17050117, h1 := 0x21fb7871, h2 := 0x6498be2b, h3 := 0xfec5b5ad, h4 := 0x9790042c }, 0,
        .finalized, wordBytes (List.replicate 14 0 ++ [0xffffffff, 0xfffffff8])) := by decide +kernel
/-- V42. -/
theorem test_render_not_finalized : onNext (exec .render State.reset) (·.rsp) =
    some (some { status := .notFinalized, digest := none }) := by decide
/-- The placement of R65, and R120 in the `Overflowed` state. -/
theorem test_render_payload : onNext (exec .render { State.reset with st := .finalized }) (·.rsp) =
      some (some { status := .ok, digest := some 0x67452301EFCDAB8998BADCFE10325476C3D2E1F0 }) ∧
    onNext (exec .render { State.reset with st := .overflowed }) (·.rsp) =
      some (some { status := .notFinalized, digest := none }) := by decide +kernel
/-- V43. -/
theorem test_digest_empty : onNext (exec .digest State.reset) (fun t => (t.rsp, t.st, t.fill)) =
    some (some { status := .ok, digest := some 0xda39a3ee5e6b4b0d3255bfef95601890afd80709 }, .finalized, 0) := by
  decide +kernel
/-- V31, n = 56: the shortest message with two final compressions. -/
theorem test_digest_56_bytes : onNext (exec .digest (pendingState (List.replicate 56 0x61) 56 0x1c0)) (·.rsp) =
    some (some { status := .ok, digest := some 0xc2db330f6083854c99d4b5bfb6e8f29f201be699 }) := by decide +kernel

/-! ## Steps, reset, the host's notation -/

/-- P3: an illegal word leaves no trace. -/
theorem test_step_illegal : onNext (step (State.withFetchWord (pendingState [0x74] 1 8) 16 0x2165)) id =
    some { pendingState [0x74] 1 8 with rsp := some { status := .illegalCommand, digest := none } } := by decide
/-- R160, U17: `rst` while a command is in progress. -/
theorem test_step_reset : onNext (step { pendingState [0x74] 1 8 with inbox := [.commandThenRst 0x5000] }) id =
    some { State.reset with era := 1 } := by decide
/-- V40 through the port. -/
theorem test_step_feed : onNext (step (State.withFetchWord State.reset 16 0x2061)) id =
    some { State.reset with buf := [(0, 0x61)], fill := 1, len := 8, rsp := some { status := .ok, digest := none } } := by
  decide
/-- R67, R68: the examples of the rules. -/
theorem test_assembler : assembleLine "FEED 0x61".toList = some [.feed 0x61] ∧
    assembleLine "FEED 'a' ; a comment".toList = some [.feed 0x61] ∧
    assembleLine "FEED 255".toList = some [.feed 255] ∧ assembleLine "FEED 256".toList = none ∧
    assembleLine "HASH \"abc\"".toList = some [.init, .feed 0x61, .feed 0x62, .feed 0x63, .digest] ∧
    assembleLine "FEEDS 0x00, 'b', 3".toList = some [.feed 0, .feed 0x62, .feed 3] ∧
    assembleLine "FEEDS".toList = some [] ∧ assembleLine "feed 1".toList = none := by decide +kernel

/-! ## Witnesses: for every statement with hypotheses, values that meet them -/

/-- One byte fed. -/
def fedOne : State := pendingState [0x61] 1 8

/-- The fullest accepting state there is (V48, with the cells below `FILL` written). -/
def fullState : State := pendingState (List.replicate 63 0) 63 0xFFFFFFFFFFFFFFF8

/-- A finalized state. -/
def doneState : State :=
  { State.reset with buf := cells (List.replicate 64 0), st := .finalized,
                     rsp := some { status := .ok, digest := some (payload iv) } }

/-- An overflowed state. -/
def overState : State := { fullState with st := .overflowed }

theorem fedOne_inv : EngineInv fedOne :=
  ⟨by decide, by decide, by decide, by decide, by decide, by decide, by decide, by decide, by
    intro r d h; simp [fedOne, pendingState, State.reset] at h⟩

theorem fullState_inv : EngineInv fullState :=
  ⟨by decide +kernel, by decide, by decide, by decide, by decide +kernel, by decide, by decide +kernel, by decide, by
    intro r d h; simp [fullState, pendingState, State.reset] at h⟩

theorem overState_inv : EngineInv overState :=
  ⟨by decide +kernel, by decide, by decide, by decide, by decide +kernel, by decide, by decide +kernel, by decide, by
    intro r d h; simp [overState, fullState, pendingState, State.reset] at h⟩

theorem doneState_inv : EngineInv doneState :=
  ⟨by decide +kernel, by decide, by decide, by decide, by decide, by decide, by decide +kernel, by decide, by
    intro r d h h'
    simp only [doneState, Option.some.injEq] at h
    subst h
    exact ⟨rfl, rfl, (Option.some.inj h').symm⟩⟩

theorem fedOne_fed : Fed [0x61] fedOne := ⟨rfl, rfl, rfl, rfl, by decide⟩

theorem reset_fed : Fed [] State.reset := ⟨rfl, rfl, rfl, rfl, by decide⟩

theorem witness_OpcodeMapSelectsDecodedRow : decode 0x20FF = .command (.feed 0xFF) ∧
    ∃ r ∈ opMap, r.selects 0x20FF = true := by decide
theorem witness_IllegalWordsAnsweredAndHarmless :
    (State.withFetchWord fedOne 16 0x2165).inbox = .command 0x2165 :: [] ∧
      decode 0x2165 = .illegal .reservedField := by decide
theorem witness_StepRunsDecodedCommand :
    (State.withFetchWord fedOne 16 0x5000).inbox = .command 0x5000 :: [] ∧ decode 0x5000 = .command .digest := by decide
theorem witness_Add32SumsModulo : [(1 : Word), 2].Perm [2, 1] := by decide
theorem witness_Rotl32RotatesBits : 1 ≤ 1 ∧ 1 ≤ 31 ∧ 31 ≤ 31 ∧ 31 < 32 := by decide
theorem witness_StageFunctionsBitwise : 31 < 32 ∧ (∀ t ∈ [0, 19, 20, 39, 40, 59, 60, 79], t < 80) := by decide
theorem witness_ScheduleLoadAndExpansion : 15 < 16 ∧ 16 ≤ 16 ∧ 16 ≤ 79 ∧ 79 < 80 := by decide
theorem witness_CompressRunsEightyRounds : 79 < 80 := by decide
theorem witness_MixerRecurrenceOnA : ∀ k ∈ [1, 2, 3, 4, 80], k ≤ 80 := by decide
theorem witness_WordReadBigEndian : 15 < 16 := by decide
theorem witness_FooterWriteBigEndian : 7 < 8 ∧ 55 < 56 := by decide
theorem witness_ByteWriteChangesOneCell : 63 < 64 ∧ 62 ≠ 63 := by decide
theorem witness_OffsetOutsideFaults :
    ({ State.reset with fill := 64 } : State).st = .accepting ∧ ({ State.reset with fill := 64 } : State).fill.val = 64 ∧
      ({ State.reset with fill := 64 } : State).len.toNat + 8 ≤ 2 ^ 64 - 1 := by decide
theorem witness_InitMeaning : onNext (exec .init fedOne) (·.fill) = some 0 := by decide
theorem witness_FeedMeaning : overState.st = .overflowed ∧ doneState.st = .finalized ∧
    (fullState.st = .accepting ∧ 2 ^ 64 - 1 < fullState.len.toNat + 8) ∧
    (fedOne.st = .accepting ∧ fedOne.len.toNat + 8 ≤ 2 ^ 64 - 1 ∧ fedOne.fill.val < 63) ∧
    (({ fullState with len := 0x1f8 } : State).st = .accepting ∧
      ({ fullState with len := 0x1f8 } : State).len.toNat + 8 ≤ 2 ^ 64 - 1 ∧
      ({ fullState with len := 0x1f8 } : State).fill.val = 63) := by decide
theorem witness_FeedFrame : onNext (exec (.feed 0x62) fedOne) (·.fill) = some 2 := by decide
theorem witness_FeedOverflowDetection : (EngineInv fullState ∧ fullState.st = .accepting ∧
      fullState.len.toNat = 2 ^ 64 - 8) ∧
    (EngineInv fedOne ∧ fedOne.st = .accepting ∧ fedOne.len.toNat ≠ 2 ^ 64 - 8 ∧ Fed [0x61] fedOne) :=
  ⟨⟨fullState_inv, by decide, by decide⟩, fedOne_inv, by decide, by decide, fedOne_fed⟩
theorem witness_FinalizeMeaning : overState.st = .overflowed ∧ doneState.st = .finalized ∧
    (∀ f ∈ [(0 : Fin 65), 55], ({ State.reset with fill := f } : State).st = .accepting ∧
      ({ State.reset with fill := f } : State).fill.val ≤ 55) ∧
    (∀ f ∈ [(56 : Fin 65), 63], ({ State.reset with fill := f } : State).st = .accepting ∧
      56 ≤ ({ State.reset with fill := f } : State).fill.val ∧
      ({ State.reset with fill := f } : State).fill.val ≤ 63) := by decide
theorem witness_ClosingCommandsFrame : onNext (exec .finalize fedOne) (·.st) = some .finalized ∧
    onNext (exec .digest overState) (·.st) = some .overflowed ∧ fedOne.st = .accepting ∧ overState.st ≠ .accepting ∧
    ¬ 1 ≤ 0 := by decide +kernel
theorem witness_RenderMeaning : doneState.st = .finalized ∧ fedOne.st ≠ .finalized ∧
    onNext (exec .render fedOne) (·.fill) = some 1 := by decide
theorem witness_DigestMeaning : overState.st = .overflowed ∧ doneState.st = .finalized ∧ fullState.st = .accepting ∧
    fullState.fill.val ≤ 63 := by decide
theorem witness_LifecycleTable : (EngineInv fedOne ∧ EngineInv fullState ∧ EngineInv overState ∧ EngineInv doneState) ∧
    (State.withFetchWord overState 16 0x3001).inbox = .command 0x3001 :: [] ∧ ∀ i, decode 0x3001 ≠ .command i :=
  ⟨⟨fedOne_inv, fullState_inv, overState_inv, doneState_inv⟩, by decide, fun i h =>
    Decoded.noConfusion ((show decode 0x3001 = .illegal .dataField by decide).symm.trans h)⟩
theorem witness_StatusCodesOnPins : doneState.rsp = some { status := .ok, digest := some (payload iv) } ∧
    rspStatusPins doneState = some 0 := by decide
theorem witness_RaiseWritesNothing :
    (State.withFetchWord fullState 16 0x20BB).inbox = .command 0x20BB :: [] ∧
      onNext (step (State.withFetchWord fullState 16 0x20BB)) (·.rsp) =
        some (some { status := .overflowed, digest := none }) ∧ Status.overflowed ≠ .ok := by decide +kernel
theorem witness_TerminalStatesLeftOnlyByInit :
    (overState.st = .overflowed ∧ (State.withFetchWord overState 16 0x3000).inbox = .command 0x3000 :: [] ∧
      decode 0x3000 ≠ .command .init) ∧
    (doneState.st = .finalized ∧ (State.withFetchWord doneState 16 0x0000).inbox = .command 0x0000 :: [] ∧
      decode 0x0000 ≠ .command .init) ∧
    (doneState.st = .finalized ∧ doneState.inbox = []) ∧
    onNext (exec (.feed 0xBB) fullState) (·.rsp) = some (some { status := .overflowed, digest := none }) := by decide
theorem witness_FinalizedDigestImmutable : (doneState.st = .finalized ∧ Instr.digest ≠ .init) ∧
    [(0x4000 : CmdWord), 0x2061, 0x5000].all (fun w => decide (decode w ≠ .command .init)) = true ∧ 2 < 3 ∧
    decode 0x4000 = .command .render ∧ decode 0x5000 = .command .digest ∧ decode 0x2061 = .command (.feed 0x61) := by
  decide
theorem witness_PayloadOnlyOfFinalizedDigest :
    (State.withFetchWord doneState 16 0x4000).inbox = .command 0x4000 :: [] ∧ decode 0x4000 = .command .render ∧
      onNext (step (State.withFetchWord doneState 16 0x4000)) (·.rsp) =
        some (some { status := .ok, digest := some (payload iv) }) ∧
    onNext (step (State.withFetchWord fedOne 16 0x4000)) (·.rsp) =
      some (some { status := .notFinalized, digest := none }) := by decide +kernel
theorem witness_DigestBytesBigEndian : 3 < 4 := by decide
theorem witness_HexStringOfDigest : 7 < 8 ∧ hex40 0 = hex40 0 := by decide
theorem witness_EveryWordAnsweredOnce : EngineInv fedOne ∧
    (State.withFetchWord fedOne 16 0x0000).inbox = .command 0x0000 :: [] := ⟨fedOne_inv, by decide⟩
theorem witness_ResetInputMakesFreshSession :
    ({ fedOne with inbox := [.rst, .idle] } : State).inbox = .rst :: [.idle] ∧
    ({ fedOne with inbox := [.commandThenRst 0x5000] } : State).inbox = .commandThenRst 0x5000 :: [] := by decide
theorem witness_IdleBoundaryHoldsState : fedOne.inbox = [] ∧
    ({ fedOne with inbox := [.idle, .rst] } : State).inbox = .idle :: [.rst] := by decide
theorem witness_StepKeepsInvariant : EngineInv fedOne ∧ onNext (step fedOne) (·.fill) = some 1 :=
  ⟨fedOne_inv, by decide⟩
theorem overState_pending (h : Chain) : pending { overState with h := h } = List.replicate 63 0 := rfl

theorem overrun_zeros (n : Nat) (hn : n = 2 ^ 61 - 1) : ∃ s, Overrun (List.replicate n 0) s :=
  ⟨{ overState with h := chainBlocks ((List.replicate n (0 : Byte)).length / 64) iv (List.replicate n 0) },
    rfl, by rw [List.length_replicate, hn], (show overState.len.toNat = 2 ^ 64 - 8 by decide), rfl, rfl, by
      rw [overState_pending, List.length_replicate, List.drop_replicate]; congr 1; omega⟩

theorem witness_StepKeepsSessionHistory : (SessionInv fedOne ∧ onNext (step fedOne) (·.fill) = some 1) ∧
    ∃ s, SessionInv s ∧ s.st = .overflowed := by
  refine ⟨⟨⟨[0x61], by decide, .inl fedOne_fed⟩, by decide⟩, ?_⟩
  obtain ⟨n, hn⟩ : ∃ n, n = 2 ^ 61 - 1 := ⟨_, rfl⟩
  obtain ⟨s, hs⟩ := overrun_zeros n hn
  exact ⟨s, ⟨_, hs.bytes.le, .inr (.inl hs)⟩, hs.st⟩
theorem witness_EngineNeverStops : EngineInv doneState := doneState_inv
theorem witness_FeedExtendsSession : Fed [] State.reset ∧ Fed [0x61] fedOne ∧ [(0x61 : Byte)].length < 2 ^ 61 - 1 :=
  ⟨reset_fed, fedOne_fed, by decide⟩
theorem witness_FinalizeClosesSession : Fed [0x61] fedOne ∧ [(0x61 : Byte)].length ≤ 2 ^ 61 - 1 :=
  ⟨fedOne_fed, by decide⟩
theorem witness_PaddingIsLeast : ([] : List Byte).length = 0 ∧ (0 + 1 + 55 + 8) % 64 = 0 := by decide
theorem witness_HashComputesSha1 : ([] : List Byte).length ≤ 2 ^ 61 - 1 ∧
    ∀ n, n = 2 ^ 61 - 1 → (List.replicate n (0 : Byte)).length ≤ 2 ^ 61 - 1 :=
  ⟨Nat.zero_le _, fun n h => by rw [List.length_replicate, h]⟩
theorem witness_HashTooLongOverflows : ∃ m : List Byte, 2 ^ 61 ≤ m.length :=
  have key : ∀ n : Nat, ∃ m : List Byte, n ≤ m.length := fun n => ⟨List.replicate n 0, by rw [List.length_replicate]⟩
  key (2 ^ 61)
theorem witness_FeedsFailAlike : onNext (exec (.feed 1) doneState) (·.rsp) =
      some (some { status := .invalidState, digest := none }) ∧
    onNext (exec (.feed 1) fedOne) (·.rsp) = some (some { status := .ok, digest := none }) := by decide
theorem witness_FeedsChunkingInvariant : EngineInv overState ∧ EngineInv fedOne ∧ Fed [0x61] fedOne ∧
    ([0x61] ++ [0x62] ++ [] : List Byte).length ≤ 2 ^ 61 - 1 :=
  ⟨overState_inv, fedOne_inv, fedOne_fed, by decide⟩
theorem witness_AgreeingMachinesAnswerAlike : fedOne.fill.val < 64 ∧
    Agree fedOne { fedOne with buf := [(0, 0x61), (5, 0x77)], era := 3 } :=
  ⟨by decide, rfl, rfl, rfl, rfl, fun _ => by decide⟩

end Sys2Proof.Tests
end

/-!
Scope (00_scope.md): the step on a word that decodes, and the storing commands with `FILL` at 64.
-/

namespace Sys2Proof.Machine

/-- Settles O5: `setInbox` is the record update that the statement writes. -/
theorem stepRunsDecodedCommand : Obligations.StepRunsDecodedCommand := by
  unfold Obligations.StepRunsDecodedCommand
  intro s w rest i hinbox hdecode
  exact step_command hinbox hdecode

/-- R80 past its two checks: `ST` is Accepting and `LEN + 8` fits the counter. -/
theorem exec_feed_accepting {s : State} (hst : s.st = .accepting) (hlen : s.len.toNat + 8 ≤ 2 ^ 64 - 1) (b : Byte) :
    exec (.feed b) s =
      andThen (appendByte b s) fun s1 => respondOk none (compressIfFull (s1.setLen (s1.len + 8))) := by
  have hroom : ¬ lenWouldOverflow s.len = true := by
    rw [lenWouldOverflow_iff]
    omega
  rw [exec, execFeed, hst, inputGuard, guarded_none, if_neg hroom]

/-- R90 past its check. -/
theorem exec_finalize_accepting {s : State} (hst : s.st = .accepting) :
    exec .finalize s = andThen (closeSession s) fun s1 => respondOk none s1 := by
  rw [exec, execFinalize, hst, inputGuard, guarded_none]

/-- R131 on its Accepting path: the session is closed first. -/
theorem exec_digest_accepting {s : State} (hst : s.st = .accepting) :
    exec .digest s = andThen (closeSession s) fun s1 => respondOk (some (payload s1.h)) s1 := by
  simp only [exec, execDigest, closeIfAccepting, hst, digestGuard, guarded_none]

/-- With `FILL` at 64 the padding's first byte has no cell. -/
theorem closeSession_full {s : State} (hfill : s.fill.val = 64) :
    closeSession s = .fault .bufOffsetOutside := by
  rw [closeSession, appendByte_full hfill, andThen_fault]

/-- Settles O16: each of the three commands begins, its checks passed, with the append that faults. -/
theorem offsetOutsideFaults : Obligations.OffsetOutsideFaults := by
  unfold Obligations.OffsetOutsideFaults
  intro s hst hfill
  refine ⟨fun b hlen => ?feed, ?finalize, ?digest⟩
  case feed => rw [exec_feed_accepting hst hlen, appendByte_full hfill, andThen_fault]
  case finalize => rw [exec_finalize_accepting hst, closeSession_full hfill, andThen_fault]
  case digest => rw [exec_digest_accepting hst, closeSession_full hfill, andThen_fault]

end Sys2Proof.Machine

/-!
Every command's effect, once: the equations of `exec`, and their inversion `CommandEffect` (10_state.md, R23, R142).
-/

namespace Sys2Proof.Machine

/-- The status that a command's lifecycle check raises in `ST`, if any (R142 step 2). -/
def commandGuard (st : Lifecycle) : Instr → Option Status
  | .init => none
  | .feed _ => inputGuard st
  | .finalize => inputGuard st
  | .render => renderGuard st
  | .digest => digestGuard st

/-- A command whose check raises writes the response and nothing else (R144). -/
theorem exec_raised {i : Instr} {s : State} {e : Status} (hg : commandGuard s.st i = some e) :
    exec i s = .next (s.setRsp (some { status := e, digest := none })) := by
  cases i with
  | init => cases hg
  | feed b => rw [exec, execFeed, show inputGuard s.st = some e from hg, guarded_some, raise_eq]
  | finalize => rw [exec, execFinalize, show inputGuard s.st = some e from hg, guarded_some, raise_eq]
  | render => rw [exec, execRender, show renderGuard s.st = some e from hg, guarded_some, raise_eq]
  | digest => rw [exec, execDigest, show digestGuard s.st = some e from hg, guarded_some, raise_eq]

theorem inputGuard_eq_none {st : Lifecycle} : inputGuard st = none ↔ st = .accepting := by
  cases st <;> simp [inputGuard]

theorem renderGuard_eq_none {st : Lifecycle} : renderGuard st = none ↔ st = .finalized := by
  cases st <;> simp [renderGuard]

theorem digestGuard_eq_none {st : Lifecycle} : digestGuard st = none ↔ st = .accepting ∨ st = .finalized := by
  cases st <;> simp [digestGuard]

/-- R130. -/
theorem exec_init (s : State) :
    exec .init s = .next ((freshSession s).setRsp (some { status := .ok, digest := none })) := by
  rw [exec, execInit, respondOk_eq]

/-- R82: the byte that does not fit the counter. -/
theorem exec_feed_overflow {s : State} (hst : s.st = .accepting) (hlen : 2 ^ 64 ≤ s.len.toNat + 8) (b : Byte) :
    exec (.feed b) s = .next ((s.setSt .overflowed).setRsp (some { status := .overflowed, digest := none })) := by
  rw [exec, execFeed, hst, inputGuard, guarded_none, if_pos ((lenWouldOverflow_iff _).2 hlen), raise_eq]

/-- R80: a byte before the last of its block. -/
theorem exec_feed_below {s : State} (hst : s.st = .accepting) (hlen : s.len.toNat + 8 ≤ 2 ^ 64 - 1) {f : Fin 65}
    (hf : f.val = s.fill.val + 1) (hf64 : f.val < 64) (b : Byte) :
    exec (.feed b) s = .next ((((s.setBuf (s.buf.write s.fill.val b)).setFill f).setLen (s.len + 8)).setRsp
      (some { status := .ok, digest := none })) := by
  obtain ⟨f, hf65⟩ := f
  obtain rfl : f = s.fill.val + 1 := hf
  have hnot : ¬ s.fill.val + 1 = 64 := by simp only at hf64; omega
  rw [exec_feed_accepting hst hlen, appendByte_below (by omega), andThen_next, respondOk_eq, compressIfFull,
    State.setLen_fill, State.setFill_fill, if_neg hnot, State.setFill_len, State.setBuf_len]

/-- R80: the last byte of a block, which is compressed. -/
theorem exec_feed_last {s : State} (hst : s.st = .accepting) (hlen : s.len.toNat + 8 ≤ 2 ^ 64 - 1)
    (hfill : s.fill.val = 63) (b : Byte) :
    exec (.feed b) s = .next (((((s.setBuf (s.buf.write s.fill.val b)).setLen (s.len + 8)).setH
      (compress s.h (bufBlock (s.setBuf (s.buf.write s.fill.val b))))).setFill 0).setRsp
        (some { status := .ok, digest := none })) := by
  have hfull : s.fill.val + 1 = 64 := by omega
  rw [exec_feed_accepting hst hlen, appendByte_below (by omega), andThen_next, respondOk_eq, compressIfFull,
    State.setLen_fill, State.setFill_fill, if_pos hfull, State.setFill_len, State.setBuf_len, compressAndRewind,
    compressBuf, State.setLen_h, State.setFill_h, State.setBuf_h, bufBlock_setLen, bufBlock_setFill]
  generalize compress s.h _ = h
  rfl

/-- R120. -/
theorem exec_render_finalized {s : State} (hst : s.st = .finalized) :
    exec .render s = .next (s.setRsp (some { status := .ok, digest := some (payload s.h) })) := by
  rw [exec, execRender, hst, renderGuard, guarded_none, respondOk_eq]

/-- R131 when the session is closed already. -/
theorem exec_digest_finalized {s : State} (hst : s.st = .finalized) :
    exec .digest s = .next (s.setRsp (some { status := .ok, digest := some (payload s.h) })) := by
  simp only [exec, execDigest, closeIfAccepting, hst, digestGuard, guarded_none, andThen_next, respondOk_eq]

/-- What the Accepting path of `FINALIZE` does to `BUF`, whichever of its two forms it takes (R90 to R92). -/
theorem closeSession_below {s : State} (hst : s.st = .accepting) (hfill : s.fill.val < 64) :
    ∃ c m, closeSession s = .next (closedState s c m) ∧ (s.buf.wf → m.wf) ∧
      (∀ a, ¬ closingStores s a → m.read a = s.buf.read a) ∧ ∀ a, closingStores s a → m.read a ≠ none := by
  by_cases h55 : s.fill.val ≤ 55
  · obtain ⟨m, hclose, hwf, -, hkept, hstored⟩ := closeSession_oneBlock h55
    refine ⟨_, m, hclose, hwf, fun a ha => hkept a ?_, fun a ⟨_, ha, hor⟩ => hstored a (by omega) ha⟩
    by_contra hin
    exact ha ⟨hst, by omega, .inl (by omega)⟩
  · obtain ⟨m, hclose, hwf, -, hkept, hstored⟩ := closeSession_twoBlocks (by omega) hfill
    refine ⟨_, m, hclose, hwf, fun a ha => hkept a ?_, fun a ⟨_, ha, _⟩ => hstored a ha⟩
    by_contra hin
    exact ha ⟨hst, by omega, .inr (by omega)⟩

/-- What command `i` did in state `s`, when it answers the next state. -/
inductive CommandEffect (s : State) : Instr → State → Prop
  /-- R142 step 2, R144. -/
  | raised {i : Instr} {e : Status} (guard : commandGuard s.st i = some e) :
      CommandEffect s i (s.setRsp (some { status := e, digest := none }))
  /-- R130. -/
  | begun : CommandEffect s .init ((freshSession s).setRsp (some { status := .ok, digest := none }))
  /-- R82. -/
  | overflowed (b : Byte) (st : s.st = .accepting) (len : 2 ^ 64 ≤ s.len.toNat + 8) :
      CommandEffect s (.feed b)
        ((s.setSt .overflowed).setRsp (some { status := .overflowed, digest := none }))
  /-- R80, a byte before the last of its block. -/
  | stored (b : Byte) (f : Fin 65) (st : s.st = .accepting) (len : s.len.toNat + 8 ≤ 2 ^ 64 - 1)
      (fill : f.val = s.fill.val + 1) (below : f.val < 64) :
      CommandEffect s (.feed b)
        ((((s.setBuf (s.buf.write s.fill.val b)).setFill f).setLen (s.len + 8)).setRsp
          (some { status := .ok, digest := none }))
  /-- R80, the last byte of a block. -/
  | filled (b : Byte) (c : Chain) (st : s.st = .accepting) (len : s.len.toNat + 8 ≤ 2 ^ 64 - 1)
      (fill : s.fill.val = 63) (chain : c = compress s.h (bufBlock (s.setBuf (s.buf.write s.fill.val b)))) :
      CommandEffect s (.feed b)
        (((((s.setBuf (s.buf.write s.fill.val b)).setLen (s.len + 8)).setH c).setFill 0).setRsp
          (some { status := .ok, digest := none }))
  /-- R90 and R131 on the Accepting path. -/
  | closed {i : Instr} (c : Chain) (m : Memory) (d : Option Payload) (st : s.st = .accepting)
      (close : closeSession s = .next (closedState s c m)) (fill : s.fill.val < 64)
      (answer : i = .finalize ∧ d = none ∨ i = .digest ∧ d = some (payload c)) :
      CommandEffect s i ((closedState s c m).setRsp (some { status := .ok, digest := d }))
  /-- R120, and R131 when the session is closed already. -/
  | shown {i : Instr} (st : s.st = .finalized) (command : i = .render ∨ i = .digest) :
      CommandEffect s i (s.setRsp (some { status := .ok, digest := some (payload s.h) }))

/-- A command has one of these effects, or it needs a cell of `BUF` with `FILL` at 64. -/
theorem exec_effect_or_fault (i : Instr) (s : State) :
    (∃ t, exec i s = .next t ∧ CommandEffect s i t) ∨
      (s.fill.val = 64 ∧ exec i s = .fault .bufOffsetOutside) := by
  cases hg : commandGuard s.st i with
  | some e => exact .inl ⟨_, exec_raised hg, .raised hg⟩
  | none =>
    cases i with
    | init => exact .inl ⟨_, exec_init s, .begun⟩
    | feed b =>
      have hst := inputGuard_eq_none.1 hg
      by_cases hover : 2 ^ 64 ≤ s.len.toNat + 8
      · exact .inl ⟨_, exec_feed_overflow hst hover b, .overflowed b hst hover⟩
      · have hlen : s.len.toNat + 8 ≤ 2 ^ 64 - 1 := by omega
        obtain hbelow | hlast | hfull :
            s.fill.val + 1 < 64 ∨ s.fill.val = 63 ∨ s.fill.val = 64 := by omega
        · exact .inl ⟨_, exec_feed_below hst hlen (f := ⟨s.fill.val + 1, by omega⟩) rfl hbelow b,
            .stored b _ hst hlen rfl hbelow⟩
        · exact .inl ⟨_, exec_feed_last hst hlen hlast b, .filled b _ hst hlen hlast rfl⟩
        · obtain ⟨hfault, -⟩ := offsetOutsideFaults s hst hfull
          exact .inr ⟨hfull, hfault b hlen⟩
    | finalize =>
      have hst := inputGuard_eq_none.1 hg
      obtain hfill | hfull : s.fill.val < 64 ∨ s.fill.val = 64 := by omega
      · obtain ⟨c, m, hclose, -⟩ := closeSession_below hst hfill
        refine .inl ⟨_, ?_, .closed c m none hst hclose hfill (.inl ⟨rfl, rfl⟩)⟩
        rw [exec_finalize_accepting hst, hclose, andThen_next, respondOk_eq]
      · obtain ⟨-, hfault, -⟩ := offsetOutsideFaults s hst hfull
        exact .inr ⟨hfull, hfault⟩
    | render =>
      have hst := renderGuard_eq_none.1 hg
      exact .inl ⟨_, exec_render_finalized hst, .shown hst (.inl rfl)⟩
    | digest =>
      obtain hst | hst := digestGuard_eq_none.1 hg
      · obtain hfill | hfull : s.fill.val < 64 ∨ s.fill.val = 64 := by omega
        · obtain ⟨c, m, hclose, -⟩ := closeSession_below hst hfill
          refine .inl ⟨_, ?_, .closed c m _ hst hclose hfill (.inr ⟨rfl, rfl⟩)⟩
          rw [exec_digest_accepting hst, hclose, andThen_next, respondOk_eq, closedState_h]
        · obtain ⟨-, -, hfault⟩ := offsetOutsideFaults s hst hfull
          exact .inr ⟨hfull, hfault⟩
      · exact .inl ⟨_, exec_digest_finalized hst, .shown hst (.inr rfl)⟩

/-- With `FILL` below 64, as in every state of a run, every command answers. -/
theorem exec_answers {s : State} (hfill : s.fill.val < 64) (i : Instr) :
    ∃ t, exec i s = .next t ∧ CommandEffect s i t :=
  (exec_effect_or_fault i s).resolve_right fun h => Nat.ne_of_lt hfill h.1

/-- The inversion of `exec`. -/
theorem exec_effect {i : Instr} {s t : State} (h : exec i s = .next t) : CommandEffect s i t := by
  obtain ⟨u, hu, heffect⟩ | ⟨-, hfault⟩ := exec_effect_or_fault i s
  · rw [h] at hu
    cases hu
    exact heffect
  · rw [h] at hfault
    cases hfault

end Sys2Proof.Machine

/-!
The invariant of R21 without the history (`EngineInv`), kept by every step.
-/

namespace Sys2Proof.Machine

/-- The exact form of R82's test in the states of a run. -/
theorem EngineInv.len_full_iff {s : State} (h : EngineInv s) :
    2 ^ 64 ≤ s.len.toNat + 8 ↔ s.len.toNat = 2 ^ 64 - 8 := by
  have hbytes := h.lenWholeBytes
  have hlt := s.len.isLt
  omega

/-- The response port matters to the invariant only by the digest it shows (R65). -/
theorem EngineInv.setRsp {s : State} (h : EngineInv s) {rsp : Option Response}
    (hrsp : ∀ r d, rsp = some r → r.digest = some d → r.status = .ok ∧ s.st = .finalized ∧ d = payload s.h) :
    EngineInv (s.setRsp rsp) :=
  { h with digestOnlyWhenFinalized := hrsp }

theorem EngineInv.setInbox {s : State} (h : EngineInv s) (ins : List HostInput) : EngineInv (s.setInbox ins) :=
  { h with }

/-- R24: a fresh session, whatever `BUF` holds, has the invariant. -/
theorem EngineInv.of_fresh {s : State} (hbuf : s.buf.wf) (hfill : s.fill = 0) (hlen : s.len = 0)
    (hst : s.st = .accepting) (hrsp : ∀ r, s.rsp = some r → r.digest = none) : EngineInv s where
  bufCanonical := hbuf
  fillBelow64 := by simp [hfill]
  lenWholeBytes := by simp [hlen]
  acceptingFill _ := by simp [hfill, hlen]
  acceptingWritten _ a ha := by simp [hfill] at ha
  finalizedFill h := by simp [hst] at h
  finalizedWritten h := by simp [hst] at h
  overflowedLen h := by simp [hst] at h
  digestOnlyWhenFinalized r d hr hd := by simp [hrsp r hr] at hd

/-- Settles O37. -/
theorem resetMeetsInvariant : Obligations.ResetMeetsInvariant := by
  unfold Obligations.ResetMeetsInvariant
  exact .of_fresh Memory.wf_nil rfl rfl rfl fun r hr => by cases hr

/-- R82: a session that overflows has `LEN = 2^64 - 8`, so 63 bytes are pending. -/
theorem EngineInv.overflow {s : State} (h : EngineInv s) (hst : s.st = .accepting) (hlen : 2 ^ 64 ≤ s.len.toNat + 8) :
    EngineInv ((s.setSt .overflowed).setRsp (some { status := .overflowed, digest := none })) where
  bufCanonical := h.bufCanonical
  fillBelow64 := h.fillBelow64
  lenWholeBytes := h.lenWholeBytes
  acceptingFill hst' := by simp at hst'
  acceptingWritten hst' := by simp at hst'
  finalizedFill hst' := by simp at hst'
  finalizedWritten hst' := by simp at hst'
  overflowedLen _ := by
    have hfull := h.len_full_iff.1 hlen
    have hfill := h.acceptingFill hst
    simp only [State.setRsp_len, State.setSt_len, State.setRsp_fill, State.setSt_fill]
    omega
  digestOnlyWhenFinalized r d hr hd := by
    cases hr
    cases hd

/-- `LEN + 8` is exact where R82's test passes (R84). -/
theorem len_add_eight {v : BitVec 64} (h : v.toNat + 8 ≤ 2 ^ 64 - 1) : (v + 8).toNat = v.toNat + 8 := by
  have hroom : ¬ lenWouldOverflow v = true := by
    rw [lenWouldOverflow_iff]
    omega
  exact len_add_toNat (Bool.eq_false_of_not_eq_true hroom)

/-- R80: the byte stored extends the written part of `BUF` by the cell `FILL` named, and `FILL` keeps step with `LEN`. -/
theorem EngineInv.accept {s t : State} (h : EngineInv s) (hst : s.st = .accepting)
    (hroom : s.len.toNat + 8 ≤ 2 ^ 64 - 1) {b : Byte} (hbuf : t.buf = s.buf.write s.fill.val b)
    (hlen : t.len = s.len + 8) (hfill : t.fill.val = (s.fill.val + 1) % 64) (hst' : t.st = .accepting)
    (hrsp : t.rsp = some { status := .ok, digest := none }) : EngineInv t := by
  have hbelow := h.fillBelow64
  have hbytes := h.lenWholeBytes
  have hcount := h.acceptingFill hst
  have hlenNat : t.len.toNat = s.len.toNat + 8 := hlen ▸ len_add_eight hroom
  have hread : ∀ a, a < t.fill.val → t.buf.read a ≠ none := by
    intro a ha
    rw [hbuf, Memory.read_write]
    split
    · simp
    · exact h.acceptingWritten hst a (by omega)
  exact {
    bufCanonical := hbuf ▸ Memory.wf_write hbelow h.bufCanonical
    fillBelow64 := by omega
    lenWholeBytes := by omega
    acceptingFill := fun _ => by omega
    acceptingWritten := fun _ => hread
    finalizedFill := by simp [hst']
    finalizedWritten := by simp [hst']
    overflowedLen := by simp [hst']
    digestOnlyWhenFinalized := fun r d hr hd => by
      rw [hrsp] at hr
      cases hr
      cases hd }

/-- What `BUF` is after a session was closed: as before, but for the cells of R90 and R92, which are all written. -/
theorem closeSession_memory {s : State} (hst : s.st = .accepting) (hfill : s.fill.val < 64) {c : Chain} {m : Memory}
    (hclose : closeSession s = .next (closedState s c m)) :
    (s.buf.wf → m.wf) ∧ (∀ a, ¬ closingStores s a → m.read a = s.buf.read a) ∧
      ∀ a, closingStores s a → m.read a ≠ none := by
  obtain ⟨c', m', hclose', hmem⟩ := closeSession_below hst hfill
  have hm : m' = m := by
    rw [hclose'] at hclose
    exact congrArg State.buf (Host.Outcome.next.inj hclose)
  exact hm ▸ hmem

/-- R90, R93: closing a session writes every cell of `BUF` that was not written. -/
theorem EngineInv.close {s : State} (h : EngineInv s) (hst : s.st = .accepting) {c : Chain} {m : Memory}
    (hclose : closeSession s = .next (closedState s c m)) {d : Option Payload} (hd : ∀ p, d = some p → p = payload c) :
    EngineInv ((closedState s c m).setRsp (some { status := .ok, digest := d })) := by
  obtain ⟨hwf, hkept, hstored⟩ := closeSession_memory hst h.fillBelow64 hclose
  have hread : ∀ a, a < 64 → m.read a ≠ none := by
    intro a ha
    by_cases hin : closingStores s a
    · exact hstored a hin
    · have hbelow : a < s.fill.val := by
        by_contra hge
        exact hin ⟨hst, ha, .inl (by omega)⟩
      exact (hkept a hin).trans_ne (h.acceptingWritten hst a hbelow)
  exact {
    bufCanonical := hwf h.bufCanonical
    fillBelow64 := Nat.zero_lt_succ _
    lenWholeBytes := h.lenWholeBytes
    acceptingFill := by simp
    acceptingWritten := by simp
    finalizedFill := fun _ => rfl
    finalizedWritten := fun _ => hread
    overflowedLen := by simp
    digestOnlyWhenFinalized := fun r p hr hp => by
      cases hr
      exact ⟨rfl, rfl, hd p hp⟩ }

/-- R21: every command keeps the invariant. -/
theorem CommandEffect.keeps_inv {i : Instr} {s t : State} (heffect : CommandEffect s i t) (h : EngineInv s) :
    EngineInv t := by
  cases heffect with
  | raised hg => exact h.setRsp fun r d hr hd => by cases hr; cases hd
  | begun => exact .of_fresh h.bufCanonical rfl rfl rfl fun r hr => by cases hr; rfl
  | overflowed b hst hlen => exact h.overflow hst hlen
  | stored b f hst hlen hf hbelow =>
    refine h.accept hst hlen rfl rfl ?_ hst rfl
    show f.val = _
    omega
  | filled b c hst hlen hfill hc => exact h.accept hst hlen rfl rfl (by rw [hfill]; rfl) hst rfl
  | closed c m d hst hclose hfill hanswer =>
    refine h.close hst hclose fun p hp => ?_
    obtain ⟨-, rfl⟩ | ⟨-, rfl⟩ := hanswer
    · cases hp
    · exact (Option.some.inj hp).symm
  | shown hst hi =>
    refine h.setRsp fun r d hr hd => ?_
    cases hr
    exact ⟨rfl, hst, (Option.some.inj hd).symm⟩

/-- Settles O38: the cases of a step are the host's inputs; a command goes by its effect. -/
theorem stepKeepsInvariant : Obligations.StepKeepsInvariant := by
  unfold Obligations.StepKeepsInvariant
  intro s t h hstep
  obtain ⟨-, rfl⟩ | ⟨rest, -, rfl⟩ | ⟨rest, -, rfl⟩ | ⟨w, rest, why, -, -, rfl⟩ | ⟨w, rest, i, -, -, hexec⟩ :=
    step_cases hstep
  · exact h.setRsp fun r d hr => by cases hr
  · exact (h.setInbox rest).setRsp fun r d hr => by cases hr
  · exact .of_fresh Memory.wf_nil rfl rfl rfl fun r hr => by cases hr
  · exact (h.setInbox rest).setRsp fun r d hr hd => by cases hr; cases hd
  · exact (exec_effect hexec).keeps_inv (h.setInbox rest)

/-- Settles O35: the reset column read off `State.reset`. -/
theorem constantsAndResetRegisters : Obligations.ConstantsAndResetRegisters := by
  unfold Obligations.ConstantsAndResetRegisters
  exact ⟨rfl, rfl, rfl, rfl, rfl, rfl, rfl, rfl, rfl⟩

/-- Settles O19, one case per effect `FEED` can have. -/
theorem feedFrame : Obligations.FeedFrame := by
  unfold Obligations.FeedFrame
  intro b s t hexec
  cases exec_effect hexec with
  | raised hg => simp
  | overflowed _ hst hlen => simp [hst]
  | stored _ f hst hlen hf hbelow =>
    exact ⟨fun a ha => by simp [bufByte_write, ha], .inr (by simp [bufByte_write]), fun _ => rfl, .inl rfl,
      .inl (len_add_eight hlen), rfl, rfl⟩
  | filled _ c hst hlen hfill hc =>
    exact ⟨fun a ha => by simp [bufByte_write, ha], .inr (by simp [bufByte_write]), fun h => absurd hfill h, .inl rfl,
      .inl (len_add_eight hlen), rfl, rfl⟩
  | closed c m d hst hclose hfill hanswer => simp at hanswer
  | shown hst hi => simp at hi

/-- Settles O22, one case per effect `FINALIZE` and `DIGEST` can have. -/
theorem closingCommandsFrame : Obligations.ClosingCommandsFrame := by
  unfold Obligations.ClosingCommandsFrame
  intro i s t hi hexec
  have hresponse : ∀ r, s.st ≠ .accepting → t = s.setRsp r →
      (∀ a, ¬ closingStores s a → bufByte t a = bufByte s a) ∧
      t.len = s.len ∧ t.inbox = s.inbox ∧ t.era = s.era ∧
      (s.st ≠ .accepting → t = { s with rsp := t.rsp }) ∧
      (s.st = .accepting → t.st = .finalized ∧ t.fill.val = 0) := by
    rintro r hst rfl
    exact ⟨fun a _ => by rw [bufByte_setRsp], rfl, rfl, rfl, fun _ => rfl, fun h => absurd h hst⟩
  cases exec_effect hexec with
  | raised hg =>
    refine hresponse _ (fun hst => ?_) rfl
    rw [hst] at hg
    obtain rfl | rfl := hi <;> cases hg
  | closed c m d hst hclose hfill hanswer =>
    obtain ⟨-, hkept, -⟩ := closeSession_memory hst hfill hclose
    exact ⟨fun a ha => bufByte_of_read_eq (hkept a ha) rfl, rfl, rfl, rfl, fun h => absurd hst h, fun _ => ⟨rfl, rfl⟩⟩
  | shown hst _ => exact hresponse _ (by simp [hst]) rfl
  | begun => simp at hi
  | overflowed => simp at hi
  | stored => simp at hi
  | filled => simp at hi

/-- R23's cell when the command's check raises: each raising pair of command and `ST` in the table. -/
theorem lifecycleCell_of_guard {st : Lifecycle} {i : Instr} {e : Status} (hg : commandGuard st i = some e)
    (full : Bool) : lifecycleCell st full i = (e, false, st) := by
  cases i <;> cases st <;> cases hg <;> rfl

/-- R23, R141: the response and the next `ST` of a command's effect are those of its cell. -/
theorem CommandEffect.lifecycle {i : Instr} {s t : State} (heffect : CommandEffect s i t) (h : EngineInv s) :
    ∃ r, t.rsp = some r ∧
      (r.status, r.digest.isSome, t.st) = lifecycleCell s.st (decide (s.len.toNat = 2 ^ 64 - 8)) i := by
  cases heffect with
  | raised hg => exact ⟨_, rfl, (lifecycleCell_of_guard hg _).symm⟩
  | begun => exact ⟨_, rfl, rfl⟩
  | overflowed b hst hlen => exact ⟨_, rfl, by simp [lifecycleCell, hst, h.len_full_iff.1 hlen]⟩
  | stored b f hst hlen hf hbelow =>
    have hroom : s.len.toNat ≠ 2 ^ 64 - 8 := by omega
    exact ⟨_, rfl, by simpa [lifecycleCell, hst] using hroom⟩
  | filled b c hst hlen hfill hc =>
    have hroom : s.len.toNat ≠ 2 ^ 64 - 8 := by omega
    exact ⟨_, rfl, by simpa [lifecycleCell, hst] using hroom⟩
  | closed c m d hst hclose hfill hanswer =>
    obtain ⟨rfl, rfl⟩ | ⟨rfl, rfl⟩ := hanswer <;> exact ⟨_, rfl, by simp [lifecycleCell, hst]⟩
  | shown hst hi => obtain rfl | rfl := hi <;> exact ⟨_, rfl, by simp [lifecycleCell, hst]⟩

/-- Settles O25: a command by its effect, an undecodable word by `step_illegal`. -/
theorem lifecycleTable : Obligations.LifecycleTable := by
  unfold Obligations.LifecycleTable
  refine ⟨fun i s h => ?_, fun s w rest hinbox hw => ?_⟩
  · obtain ⟨t, hexec, heffect⟩ := exec_answers h.fillBelow64 i
    obtain ⟨r, hrsp, hcell⟩ := heffect.lifecycle h
    exact ⟨t, r, hexec, hrsp, hcell⟩
  · cases hd : decode w with
    | command i => exact absurd hd (hw i)
    | illegal why => exact ⟨_, _, step_illegal hinbox hd, rfl, rfl, rfl⟩

end Sys2Proof.Machine

/-!
R21 items 3 to 5 and R22: what the bytes accepted make of the registers and of `BUF`.
-/

namespace Sys2Proof.Machine

/-! ## Chaining over the blocks of a message -/

/-- Chaining over `p + q` blocks is chaining over the first `p` and then over the other `q`. -/
theorem chainBlocks_add (p q : Nat) (h : Chain) (bs : List Byte) :
    chainBlocks (p + q) h bs = chainBlocks q (chainBlocks p h bs) (bs.drop (64 * p)) := by
  induction p generalizing h bs with
  | zero => rw [Nat.zero_add, Nat.mul_zero, List.drop_zero, chainBlocks]
  | succ p ih =>
    rw [show p + 1 + q = p + q + 1 by omega, chainBlocks, ih, chainBlocks, List.drop_drop,
      show 64 + 64 * p = 64 * (p + 1) by omega]

theorem chainBlocks_zero (h : Chain) (bs : List Byte) : chainBlocks 0 h bs = h := id rfl

/-- Chaining over one block that is there in full. -/
theorem chainBlocks_one {b : Block} (hb : b.length = 64) (h : Chain) (rest : List Byte) :
    chainBlocks 1 h (b ++ rest) = compress h b := by
  rw [chainBlocks, List.take_left' hb, chainBlocks_zero]

theorem chainBlocks_two {b c : Block} (hb : b.length = 64) (hc : c.length = 64) (h : Chain) :
    chainBlocks 2 h (b ++ c) = compress (compress h b) c := by
  rw [chainBlocks, List.take_left' hb, List.drop_left' hb, ← List.append_nil c, chainBlocks_one hc, List.append_nil]

/-- Only the blocks counted are read. -/
theorem chainBlocks_append {q : Nat} {m : List Byte} (hq : 64 * q ≤ m.length) (h : Chain) (x : List Byte) :
    chainBlocks q h (m ++ x) = chainBlocks q h m := by
  induction q generalizing h m with
  | zero => rw [chainBlocks_zero, chainBlocks_zero]
  | succ q ih =>
    rw [chainBlocks, chainBlocks, List.take_append_of_le_length (by omega), List.drop_append_of_le_length (by omega),
      ih (by rw [List.length_drop]; omega)]

/-! ## Sessions: what begins one, what leaves one alone -/

/-- R24, R130: a fresh session has been fed nothing. -/
theorem Fed.of_fresh {s : State} (hst : s.st = .accepting) (hlen : s.len = 0) (hfill : s.fill = 0) (hh : s.h = iv) :
    Fed [] s where
  st := hst
  len := by simp [hlen]
  fill := by simp [hfill]
  h := by rw [hh, List.length_nil, Nat.zero_div, chainBlocks_zero]
  tail := by simp [pending, hfill]

theorem Fed.of_sameMachine {m : List Byte} {s t : State} (h : Fed m s) (hsame : SameMachine s t) : Fed m t := by
  rw [hsame]
  exact ⟨h.st, h.len, h.fill, h.h, h.tail⟩

theorem Overrun.of_sameMachine {m : List Byte} {s t : State} (h : Overrun m s) (hsame : SameMachine s t) :
    Overrun m t := by
  rw [hsame]
  exact ⟨h.st, h.bytes, h.len, h.fill, h.h, h.tail⟩

theorem Closed.of_sameMachine {m : List Byte} {s t : State} (h : Closed m s) (hsame : SameMachine s t) :
    Closed m t := by
  rw [hsame]
  exact ⟨h.st, h.len, h.fill, h.h, h.lastBlock⟩

theorem SessionInv.of_sameMachine {s t : State} (h : SessionInv s) (hsame : SameMachine s t) : SessionInv t := by
  obtain ⟨m, hm, hfed | hover | hclosed⟩ := h
  · exact ⟨m, hm, .inl (hfed.of_sameMachine hsame)⟩
  · exact ⟨m, hm, .inr (.inl (hover.of_sameMachine hsame))⟩
  · exact ⟨m, hm, .inr (.inr (hclosed.of_sameMachine hsame))⟩

theorem Fed.session {s : State} (h : Fed [] s) : SessionInv s := ⟨[], Nat.zero_le _, .inl h⟩

theorem sameMachine_setRsp (s : State) (r : Option Response) : SameMachine s (s.setRsp r) := id rfl

theorem sameMachine_setInbox (s : State) (ins : List HostInput) : SameMachine s (s.setInbox ins) := id rfl

/-- Settles O50. -/
theorem resetBeginsSession : Obligations.ResetBeginsSession := by
  unfold Obligations.ResetBeginsSession
  exact (Fed.of_fresh rfl rfl rfl rfl).session

/-- R130: `INIT` begins a session fed nothing. -/
theorem init_fed (s : State) (r : Option Response) : Fed [] ((freshSession s).setRsp r) :=
  .of_fresh rfl rfl rfl rfl

/-- R160: so does reset. -/
theorem applyRst_fed (s : State) : Fed [] (applyRst s) := .of_fresh rfl rfl rfl rfl

/-! ## FEED -/

/-- Storing a byte at `FILL` and counting it appends it to the pending bytes. -/
theorem pending_store (s : State) (b : Byte) {f : Fin 65} (hf : f.val = s.fill.val + 1) :
    pending ((s.setBuf (s.buf.write s.fill.val b)).setFill f) = pending s ++ [b] := by
  simp only [pending, State.setFill_fill, bufByte_setFill, hf, List.range_succ, List.map_append, List.map_cons,
    List.map_nil, bufByte_write, if_true]
  congr 1
  refine List.map_congr_left fun a ha => ?_
  rw [bufByte_write, if_neg (Nat.ne_of_lt (List.mem_range.1 ha))]

/-- With 64 bytes pending, those are all of `BUF`. -/
theorem bufBlock_eq_pending (s : State) : bufBlock s = pending (s.setFill 64) := id rfl

/-- R21 item 3 with more bytes `x` after `m`: past the whole blocks of `m` come the pending bytes and then `x`. -/
theorem Fed.drop_append {m : List Byte} {s : State} (h : Fed m s) (x : List Byte) :
    (m ++ x).drop (64 * (m.length / 64)) = pending s ++ x := by
  rw [List.drop_append_of_le_length (by omega), h.tail]

/-- R80 in a session fed `m`: an effect of `FEED b` that answers `OK` leads to a session fed `m` and then `b`. -/
theorem Fed.feed {m : List Byte} {b : Byte} {s t : State} (h : Fed m s) (hm : m.length < 2 ^ 61 - 1)
    (heffect : CommandEffect s (.feed b) t) :
    Fed (m ++ [b]) t ∧ t.rsp = some { status := .ok, digest := none } := by
  have hlenNat := h.len
  have hfillNat := h.fill
  have hlength : (m ++ [b]).length = m.length + 1 := List.length_append
  cases heffect with
  | raised hg => rw [commandGuard, h.st] at hg; cases hg
  | overflowed _ hst hlen => omega
  | stored _ f hst hlen hf hbelow =>
    have hblocks : (m.length + 1) / 64 = m.length / 64 := by omega
    refine ⟨⟨hst, ?len, ?fill, ?chain, ?tail⟩, rfl⟩
    case len => exact (len_add_eight hlen).trans (by omega)
    case fill => exact hf.trans (by omega)
    case chain =>
      rw [hlength, hblocks, chainBlocks_append (by omega), ← h.h]
      rfl
    case tail =>
      rw [hlength, hblocks, h.drop_append]
      exact pending_store s b hf
  | filled _ c hst hlen hfill hc =>
    have hblocks : (m.length + 1) / 64 = m.length / 64 + 1 := by omega
    have hblock : bufBlock (s.setBuf (s.buf.write s.fill.val b)) = pending s ++ [b] := by
      rw [bufBlock_eq_pending]
      exact pending_store s b (by rw [hfill]; rfl)
    have hc' : c = chainBlocks (m.length / 64 + 1) iv (m ++ [b]) := by
      rw [chainBlocks_add, chainBlocks_append (by omega), ← h.h, h.drop_append, ← hblock,
        ← List.append_nil (bufBlock _), chainBlocks_one (bufBlock_length _), hc]
    refine ⟨⟨hst, ?len, ?fill, ?chain, ?tail⟩, rfl⟩
    case len => exact (len_add_eight hlen).trans (by omega)
    case fill =>
      rw [hlength]
      show 0 = _
      omega
    case chain =>
      rw [hlength, hblocks, ← hc']
      rfl
    case tail =>
      rw [hlength, hblocks, List.drop_eq_nil_of_le (by omega)]
      rfl
  | closed c m d hst hclose hfill hanswer => simp at hanswer
  | shown hst hi => simp at hi

theorem Fed.fill_lt {m : List Byte} {s : State} (h : Fed m s) : s.fill.val < 64 := by
  have hfill := h.fill
  omega

/-- Settles O40. -/
theorem feedExtendsSession : Obligations.FeedExtendsSession := by
  unfold Obligations.FeedExtendsSession
  refine ⟨fun s t hexec => ?_, fun m b s h hm => ?_⟩
  · rw [exec_init] at hexec
    cases hexec
    exact init_fed s _
  · obtain ⟨t, hexec, heffect⟩ := exec_answers h.fill_lt (.feed b)
    exact ⟨t, hexec, h.feed hm heffect⟩

/-! ## Padding and the closing commands -/

theorem padded_length (m : List Byte) : (padded m).length = m.length + 1 + padZeros m.length + 8 := by
  simp [padded]
  omega

/-- Settles O42. -/
theorem paddingIsLeast : Obligations.PaddingIsLeast := by
  unfold Obligations.PaddingIsLeast
  intro m
  have hpad : padZeros m.length = (64 - (m.length + 9) % 64) % 64 := rfl
  refine ⟨by omega, fun k hk => by omega, ?_⟩
  rw [padded_length]
  omega

/-- R21 item 3: `LEN` is the message's length in bits, as the footer states it. -/
theorem Fed.len_eq {m : List Byte} {s : State} (h : Fed m s) : s.len = BitVec.ofNat 64 (8 * m.length) := by
  rw [← h.len, BitVec.ofNat_toNat, BitVec.setWidth_eq]

/-- R22's bytes past the whole blocks of the message. -/
theorem Fed.padded_drop {m : List Byte} {s : State} (h : Fed m s) :
    (padded m).drop (64 * (m.length / 64)) =
      pending s ++ 0x80 :: List.replicate (padZeros m.length) 0x00 ++ be64 s.len := by
  rw [padded, h.len_eq, List.append_assoc, List.append_assoc, h.drop_append]
  simp

/-- R92: with at most 55 bytes pending those are one block. -/
theorem Fed.padded_drop_oneBlock {m : List Byte} {s : State} (h : Fed m s) (hp : s.fill.val ≤ 55) :
    (padded m).drop (64 * (m.length / 64)) = onlyBlock (pending s) s.len := by
  have hfill := h.fill
  have hzeros : padZeros m.length = 55 - s.fill.val := by
    rw [padZeros]
    omega
  rw [h.padded_drop, hzeros, onlyBlock, pending_length]

/-- R92: with 56 to 63 bytes pending they are two. -/
theorem Fed.padded_drop_twoBlocks {m : List Byte} {s : State} (h : Fed m s) (hp : 56 ≤ s.fill.val) :
    (padded m).drop (64 * (m.length / 64)) = spillFirst (pending s) ++ spillSecond s.len := by
  have hfill := h.fill
  have hzeros : padZeros m.length = 63 - s.fill.val + 56 := by
    rw [padZeros]
    omega
  rw [h.padded_drop, hzeros, List.replicate_add, spillFirst, spillSecond, pending_length]
  simp

/-- R22 with the blocks of the message done already: what is left is the padded tail. -/
theorem Fed.sha1_eq {m : List Byte} {s : State} (h : Fed m s) {k : Nat}
    (hk : (padded m).length = 64 * (m.length / 64) + 64 * k) :
    sha1 m = chainBlocks k s.h ((padded m).drop (64 * (m.length / 64))) := by
  rw [sha1, hk, show (64 * (m.length / 64) + 64 * k) / 64 = m.length / 64 + k by omega, chainBlocks_add, h.h]
  congr 1
  rw [padded, List.append_assoc, List.append_assoc, chainBlocks_append (by omega)]

/-- The registers of R93; stated over a variable chaining value, which keeps `compress` out of the check. -/
theorem Fed.closed {m : List Byte} {s : State} (h : Fed m s) {c : Chain} {mem : Memory} (hc : c = sha1 m)
    (hblock : bufBlock (closedState s c mem) = (padded m).drop ((padded m).length - 64)) :
    Closed m (closedState s c mem) :=
  ⟨rfl, h.len, rfl, hc, hblock⟩

/-- R90 in a session fed `m`: `H` becomes the SHA-1 state of `m`, and `BUF` holds the last padded block. -/
theorem Fed.close {m : List Byte} {s : State} (h : Fed m s) :
    ∃ c mem, closeSession s = .next (closedState s c mem) ∧ Closed m (closedState s c mem) := by
  have hfill := h.fill
  have htotal := congrArg List.length (List.take_append_drop (64 * (m.length / 64)) (padded m))
  have hwhole : 64 * (m.length / 64) ≤ (padded m).length := by
    rw [padded_length]
    omega
  rw [List.length_append, List.length_take, Nat.min_eq_left hwhole] at htotal
  by_cases hp : s.fill.val ≤ 55
  · obtain ⟨mem, hclose, -, hblock, -⟩ := closeSession_oneBlock hp
    have hdrop := h.padded_drop_oneBlock hp
    have hone : (onlyBlock (pending s) s.len).length = 64 := hblock ▸ bufBlock_length _
    rw [hdrop, hone] at htotal
    refine ⟨_, mem, hclose, h.closed ?_ ?_⟩
    · rw [h.sha1_eq (k := 1) (by omega), hdrop, ← List.append_nil (onlyBlock _ _), chainBlocks_one hone,
        List.append_nil]
    · rw [hblock, ← htotal, Nat.add_sub_cancel, hdrop]
  · have hp : 56 ≤ s.fill.val := by omega
    obtain ⟨mem, hclose, -, hblock, -⟩ := closeSession_twoBlocks hp h.fill_lt
    have hdrop := h.padded_drop_twoBlocks hp
    have hsecond : (spillSecond s.len).length = 64 := hblock ▸ bufBlock_length _
    have hfirst : (spillFirst (pending s)).length = 64 := by
      simp [spillFirst]
      omega
    rw [hdrop, List.length_append, hfirst, hsecond] at htotal
    refine ⟨_, mem, hclose, h.closed ?_ ?_⟩
    · rw [h.sha1_eq (k := 2) (by omega), hdrop, chainBlocks_two hfirst hsecond]
    · rw [hblock, ← htotal, show 64 * (m.length / 64) + (64 + 64) - 64 = 64 * (m.length / 64) + 64 by omega,
        ← List.drop_drop, hdrop, List.drop_left' hfirst]

/-- R93: `FINALIZE` closes a session fed `m`. -/
theorem Fed.finalize {m : List Byte} {s : State} (h : Fed m s) :
    ∃ t, exec .finalize s = .next t ∧ Closed m t ∧ t.rsp = some { status := .ok, digest := none } := by
  obtain ⟨c, mem, hclose, hclosed⟩ := h.close
  refine ⟨_, ?_, hclosed.of_sameMachine (sameMachine_setRsp _ _), State.setRsp_rsp _ _⟩
  rw [exec_finalize_accepting h.st, hclose, andThen_next, respondOk_eq]

/-- R131: `DIGEST` closes it and answers its digest. -/
theorem Fed.digest {m : List Byte} {s : State} (h : Fed m s) :
    ∃ t, exec .digest s = .next t ∧ Closed m t ∧
      t.rsp = some { status := .ok, digest := some (payload (sha1 m)) } := by
  obtain ⟨c, mem, hclose, hclosed⟩ := h.close
  refine ⟨_, ?_, hclosed.of_sameMachine (sameMachine_setRsp _ _), State.setRsp_rsp _ _⟩
  rw [exec_digest_accepting h.st, hclose, andThen_next, respondOk_eq, hclosed.h]

/-- Settles O41. -/
theorem finalizeClosesSession : Obligations.FinalizeClosesSession := by
  unfold Obligations.FinalizeClosesSession
  intro m s h _
  exact h.finalize

/-! ## Every step -/

/-- R82: an accepting session of `2^61 - 1` bytes overflows with its next. -/
theorem Fed.overflow {m : List Byte} {s : State} (h : Fed m s) (hm : m.length ≤ 2 ^ 61 - 1)
    (hlen : 2 ^ 64 ≤ s.len.toNat + 8) (r : Option Response) : Overrun m ((s.setSt .overflowed).setRsp r) := by
  have hlenNat := h.len
  have hfill := h.fill
  exact ⟨rfl, Nat.le_antisymm hm (by omega), show s.len.toNat = _ by omega, show s.fill.val = 63 by omega, h.h, h.tail⟩

/-- A session that accepts bytes has been fed some. -/
theorem SessionInv.fed {s : State} (h : SessionInv s) (hst : s.st = .accepting) :
    ∃ m : List Byte, m.length ≤ 2 ^ 61 - 1 ∧ Fed m s := by
  obtain ⟨m, hm, hfed | hover | hclosed⟩ := h
  · exact ⟨m, hm, hfed⟩
  · have := hover.st
    simp [hst] at this
  · have := hclosed.st
    simp [hst] at this

/-- A byte that fits the counter goes to a session of less than `2^61 - 1` bytes. -/
theorem Fed.length_lt {m : List Byte} {s : State} (h : Fed m s) (hlen : s.len.toNat + 8 ≤ 2 ^ 64 - 1) :
    m.length < 2 ^ 61 - 1 := by
  have hlenNat := h.len
  omega

/-- R21 items 3 to 5: every command leads from a session that some bytes explain to one that some bytes explain. -/
theorem CommandEffect.keeps_session {i : Instr} {s t : State} (heffect : CommandEffect s i t) (h : SessionInv s) :
    SessionInv t := by
  have haccept : ∀ b, CommandEffect s (.feed b) t → s.st = .accepting → s.len.toNat + 8 ≤ 2 ^ 64 - 1 →
      SessionInv t := by
    intro b heffect hst hlen
    obtain ⟨m, -, hfed⟩ := h.fed hst
    have hm := hfed.length_lt hlen
    refine ⟨m ++ [b], ?_, .inl (hfed.feed hm heffect).1⟩
    rw [List.length_append, List.length_singleton]
    omega
  cases heffect with
  | raised hg => exact h.of_sameMachine (sameMachine_setRsp _ _)
  | begun => exact (init_fed s _).session
  | overflowed b hst hlen =>
    obtain ⟨m, hm, hfed⟩ := h.fed hst
    exact ⟨m, hm, .inr (.inl (hfed.overflow hm hlen _))⟩
  | stored b f hst hlen hf hbelow => exact haccept b (.stored b f hst hlen hf hbelow) hst hlen
  | filled b c hst hlen hfill hc => exact haccept b (.filled b c hst hlen hfill hc) hst hlen
  | closed c mem d hst hclose hfill hanswer =>
    obtain ⟨m, hm, hfed⟩ := h.fed hst
    obtain ⟨c', mem', hclose', hclosed⟩ := hfed.close
    have hsame : closedState s c' mem' = closedState s c mem := by
      rw [hclose'] at hclose
      exact Host.Outcome.next.inj hclose
    rw [hsame] at hclosed
    exact ⟨m, hm, .inr (.inr (hclosed.of_sameMachine (sameMachine_setRsp _ _)))⟩
  | shown hst hi => exact h.of_sameMachine (sameMachine_setRsp _ _)

/-- Settles O49: the cases of a step are the host's inputs; a command goes by its effect. -/
theorem stepKeepsSessionHistory : Obligations.StepKeepsSessionHistory := by
  unfold Obligations.StepKeepsSessionHistory
  intro s t h hstep
  have htaken := fun rest => h.of_sameMachine (sameMachine_setInbox s rest)
  obtain ⟨-, rfl⟩ | ⟨rest, -, rfl⟩ | ⟨rest, -, rfl⟩ | ⟨w, rest, why, -, -, rfl⟩ | ⟨w, rest, i, -, -, hexec⟩ :=
    step_cases hstep
  · exact h.of_sameMachine (sameMachine_setRsp s none)
  · exact (htaken rest).of_sameMachine (sameMachine_setRsp _ none)
  · exact (applyRst_fed _).session
  · exact (htaken rest).of_sameMachine (sameMachine_setRsp _ _)
  · exact (exec_effect hexec).keeps_session (htaken rest)

end Sys2Proof.Machine

/-!
R22 as the host presents it: whole sessions of command words (R133, R168).
-/

namespace Sys2Proof.Machine

/-- R60: the fields of a command's word. -/
theorem opField_encode (i : Instr) : opField (encode i) = opcode i := by
  rw [opField, encode, BitVec.extractLsb'_append_eq_of_le (by omega)]
  exact BitVec.extractLsb'_append_eq_left

theorem zField_encode (i : Instr) : zField (encode i) = 0 := by
  rw [zField, encode, BitVec.extractLsb'_append_eq_of_le (by omega)]
  exact BitVec.extractLsb'_append_eq_right

theorem dField_encode (i : Instr) : dField (encode i) = dataByte i :=
  BitVec.extractLsb'_append_eq_right

/-- R60 to R62: a command's word decodes to the command. -/
theorem decode_encode (i : Instr) : decode (encode i) = .command i := by
  rw [decode, zField_encode, opField_encode, dField_encode, if_pos rfl]
  cases i <;> rfl

/-- A step that answers, and then `n` steps. -/
theorem core_run_next {M : Host.Core} {s t : M.State} (h : M.step s = .next t) (n : Nat) :
    M.run (n + 1) s = M.run n t := by
  rw [Host.Core.run, h]

/-- The same for this machine. -/
theorem run_next {s t : State} (h : step s = .next t) (n : Nat) :
    Host.Core.run Sys2Proof.core (n + 1) s = Host.Core.run Sys2Proof.core n t :=
  core_run_next (M := Sys2Proof.core) (s := s) (t := t) h n

/-- A run of command words does what their commands do one after another, and leaves the rest of the host's inputs. -/
theorem run_assemble {is : List Instr} {s t : State} (h : runInstrs is s = .next t) (rest : List HostInput) :
    Host.Core.run Sys2Proof.core is.length (s.setInbox ((assemble is).map .command ++ rest)) =
      .next (t.setInbox rest) := by
  induction is generalizing s with
  | nil =>
    cases h
    rfl
  | cons i is ih =>
    obtain ⟨u, hexec, hrun⟩ := andThen_eq_next.1 h
    have hstep : step (s.setInbox ((assemble (i :: is)).map .command ++ rest)) =
        .next (u.setInbox ((assemble is).map .command ++ rest)) := by
      rw [step_command (w := encode i) rfl (decode_encode i), setInbox_setInbox, exec_setInbox, hexec, withInbox_next]
      rfl
    exact (run_next hstep is.length).trans (ih hrun)

/-- R85 in a session fed `x`: `FEEDS m`, and then commands `is`. -/
theorem Fed.runInstrs_feeds {x m : List Byte} {s : State} (h : Fed x s) (hm : (x ++ m).length ≤ 2 ^ 61 - 1)
    (is : List Instr) : ∃ u, Fed (x ++ m) u ∧ runInstrs (feeds m ++ is) s = runInstrs is u := by
  induction m generalizing x s with
  | nil => exact ⟨s, by rwa [List.append_nil], rfl⟩
  | cons b m ih =>
    have hx : x.length < 2 ^ 61 - 1 := by
      rw [List.length_append, List.length_cons] at hm
      omega
    obtain ⟨t, hexec, heffect⟩ := exec_answers h.fill_lt (.feed b)
    obtain ⟨hfed, -⟩ := h.feed hx heffect
    rw [List.append_cons] at hm ⊢
    obtain ⟨u, hu, hrun⟩ := ih hfed hm
    refine ⟨u, hu, ?_⟩
    rw [← hrun, feeds, List.map_cons, List.cons_append, runInstrs, hexec, andThen_next]
    rfl

/-- How a session of `m` is to end (R22): closed, with the digest on the port. -/
structure ShowsDigest (m : List Byte) (t : State) : Prop where
  rsp : t.rsp = some { status := .ok, digest := some (payload (sha1 m)) }
  closed : Closed m t

/-- Commands that end every session fed bytes with the digest of those bytes. -/
def EndsWithDigest (is : List Instr) : Prop :=
  ∀ (m : List Byte) (s : State), Fed m s → ∃ t, runInstrs is s = .next t ∧ ShowsDigest m t

theorem digest_endsWithDigest : EndsWithDigest [.digest] := by
  intro m s h
  obtain ⟨t, hexec, hclosed, hrsp⟩ := h.digest
  exact ⟨t, by rw [runInstrs, hexec, andThen_next, runInstrs], hrsp, hclosed⟩

theorem finalize_render_endsWithDigest : EndsWithDigest [.finalize, .render] := by
  intro m s h
  obtain ⟨u, hfinalize, hclosed, -⟩ := h.finalize
  refine ⟨_, ?_, State.setRsp_rsp _ _, hclosed.of_sameMachine (sameMachine_setRsp u _)⟩
  rw [runInstrs, hfinalize, andThen_next, runInstrs, exec_render_finalized hclosed.st, andThen_next, runInstrs,
    hclosed.h]

/-- R22 from a session fed nothing: `FEEDS m` and an ending. -/
theorem EndsWithDigest.after_feeds {is : List Instr} (his : EndsWithDigest is) {m : List Byte} {s : State} (h : Fed [] s)
    (hm : m.length ≤ 2 ^ 61 - 1) : ∃ t, runInstrs (feeds m ++ is) s = .next t ∧ ShowsDigest m t := by
  obtain ⟨u, hu, hfeeds⟩ := h.runInstrs_feeds (m := m) hm is
  rw [hfeeds]
  exact his m u hu

/-- R22 after `INIT` from any state. -/
theorem EndsWithDigest.after_init_feeds {is : List Instr} (his : EndsWithDigest is) {m : List Byte} (s : State)
    (hm : m.length ≤ 2 ^ 61 - 1) :
    ∃ t, runInstrs (.init :: feeds m ++ is) s = .next t ∧ ShowsDigest m t := by
  rw [List.cons_append, runInstrs, exec_init, andThen_next]
  exact his.after_feeds (init_fed s _) hm

/-- The same commands as words, before whatever else the host will do. -/
theorem run_showsDigest {is : List Instr} {m : List Byte} {s : State} {n : Nat} (hn : is.length = n)
    (h : ∃ t, runInstrs is s = .next t ∧ ShowsDigest m t) (rest : List HostInput) :
    ∃ t, Host.Core.run Sys2Proof.core n (s.setInbox ((assemble is).map .command ++ rest)) = .next t ∧
      t.rsp = some { status := .ok, digest := some (payload (sha1 m)) } ∧ t.inbox = rest ∧ Closed m t := by
  obtain ⟨t, hrun, hshown⟩ := h
  subst hn
  exact ⟨_, run_assemble hrun rest, hshown.rsp, rfl, hshown.closed.of_sameMachine (sameMachine_setInbox t rest)⟩

/-- A run that begins with reset. -/
theorem run_rst_showsDigest {is : List Instr} {m : List Byte} {s : State} {n : Nat} (hn : is.length = n)
    (h : ∃ t, runInstrs is (applyRst s) = .next t ∧ ShowsDigest m t) (rest : List HostInput) :
    ∃ t, Host.Core.run Sys2Proof.core (n + 1) (s.setInbox (.rst :: (assemble is).map .command ++ rest)) = .next t ∧
      t.rsp = some { status := .ok, digest := some (payload (sha1 m)) } ∧ t.inbox = rest ∧ Closed m t := by
  obtain ⟨t, hrun, hend⟩ := run_showsDigest hn h rest
  exact ⟨t, (run_next (t := (applyRst s).setInbox _) rfl n).trans hrun, hend⟩

/-- Settles O43: both beginnings make a session fed nothing, and both endings give the digest. -/
theorem hashComputesSha1 : Obligations.HashComputesSha1 := by
  unfold Obligations.HashComputesSha1
  intro m s rest hm
  exact ⟨run_showsDigest (by simp [feeds]) (digest_endsWithDigest.after_init_feeds s hm) rest,
    run_showsDigest (by simp [feeds]) (finalize_render_endsWithDigest.after_init_feeds s hm) rest,
    run_rst_showsDigest (by simp [feeds]) (digest_endsWithDigest.after_feeds (applyRst_fed s) hm) rest,
    run_rst_showsDigest (by simp [feeds]) (finalize_render_endsWithDigest.after_feeds (applyRst_fed s) hm) rest⟩

end Sys2Proof.Machine

/-!
The block buffer (20_memory.md): big-endian words of `BUF`, byte and footer writes, and that a response depends on `BUF`
only below `FILL`.
-/

namespace Sys2Proof.Machine

/-! ## Bytes, words and the footer -/

theorem bufBlock_getD {s : State} {a : Nat} (ha : a < 64) : (bufBlock s).getD a 0 = bufByte s a :=
  pending_getD (s := s.setFill 64) ha

/-- R8: `be32` on numbers. -/
theorem be32_toNat (b0 b1 b2 b3 : Byte) :
    (be32 b0 b1 b2 b3).toNat = b0.toNat * 2 ^ 24 + b1.toNat * 2 ^ 16 + b2.toNat * 2 ^ 8 + b3.toNat := by
  rw [be32, BitVec.toNat_append, BitVec.toNat_append, BitVec.toNat_append,
    ← Nat.shiftLeft_add_eq_or_of_lt b1.isLt, ← Nat.shiftLeft_add_eq_or_of_lt b2.isLt,
    ← Nat.shiftLeft_add_eq_or_of_lt b3.isLt]
  omega

/-- R8: `be64_byte` on numbers. -/
theorem be64Byte_toNat (v : BitVec 64) (i : Nat) : (be64Byte v i).toNat = v.toNat / 2 ^ (56 - 8 * i) % 2 ^ 8 := by
  rw [be64Byte, BitVec.extractLsb'_toNat, Nat.shiftRight_eq_div_pow]

theorem be64_getD (v : BitVec 64) {i : Nat} (hi : i < 8) : (be64 v).getD i 0 = be64Byte v i := by
  simp [be64, List.getD, hi]

/-- R15, R43: the first four bytes of the footer are `LEN_HI`. -/
theorem be32_be64Byte_hi (v : BitVec 64) :
    be32 (be64Byte v 0) (be64Byte v 1) (be64Byte v 2) (be64Byte v 3) = lenHi v := by
  apply BitVec.eq_of_toNat_eq
  simp only [be32_toNat, be64Byte_toNat, lenHi, BitVec.extractLsb'_toNat, Nat.shiftRight_eq_div_pow]
  omega

/-- R15, R43: the last four are `LEN_LO`. -/
theorem be32_be64Byte_lo (v : BitVec 64) :
    be32 (be64Byte v 4) (be64Byte v 5) (be64Byte v 6) (be64Byte v 7) = lenLo v := by
  apply BitVec.eq_of_toNat_eq
  simp only [be32_toNat, be64Byte_toNat, lenLo, BitVec.extractLsb'_toNat, Nat.shiftRight_eq_div_pow]
  omega

/-- Writes that leave `FILL` alone change `BUF` alone. -/
theorem OnlyBufAndFill.eq_setBuf {s t : State} (h : OnlyBufAndFill s t) (hfill : t.fill = s.fill) :
    t = s.setBuf t.buf := by
  calc t = (s.setBuf t.buf).setFill t.fill := h
    _ = (s.setBuf t.buf).setFill s.fill := by rw [hfill]
    _ = s.setBuf t.buf := rfl

/-- Settles O13. -/
theorem wordReadBigEndian : Obligations.WordReadBigEndian := by
  unfold Obligations.WordReadBigEndian
  intro s i hi
  refine ⟨be32_toNat _ _ _ _, ?_⟩
  rw [blockWord, bufBlock_getD (by omega), bufBlock_getD (by omega), bufBlock_getD (by omega),
    bufBlock_getD (by omega), bufWord]

/-- Settles O14: the cells from 56 on hold the bytes of `be64`, four of which make each half. -/
theorem footerWriteBigEndian : Obligations.FooterWriteBigEndian := by
  unfold Obligations.FooterWriteBigEndian
  intro s v
  obtain ⟨t, hwrite, honly, hfill, -, hread⟩ := memWrite8_spec (a := 56) (by omega) v s
  obtain ⟨-, -, -, -, -, hera⟩ := honly.fields
  have hfooter : ∀ i, i < 8 → bufByte t (56 + i) = be64Byte v i := by
    intro i hi
    rw [← be64_getD v hi]
    refine bufByte_of_read ?_
    rw [hread, if_pos (by omega), Nat.add_sub_cancel_left]
  have hbelow : ∀ a, a < 56 → bufByte t a = bufByte s a := by
    intro a ha
    refine bufByte_of_read_eq ?_ hera
    rw [hread, if_neg (by omega)]
  refine ⟨t, hwrite, fun i hi => ?byte, hbelow, ?high, ?low, honly.eq_setBuf hfill⟩
  case byte => rw [hfooter i hi, be64Byte_toNat]
  case high =>
    rw [bufWord, hfooter 0 (by omega), hfooter 1 (by omega), hfooter 2 (by omega), hfooter 3 (by omega),
      be32_be64Byte_hi]
  case low =>
    rw [bufWord, hfooter 4 (by omega), hfooter 5 (by omega), hfooter 6 (by omega), hfooter 7 (by omega),
      be32_be64Byte_lo]

/-- Settles O15. -/
theorem byteWriteChangesOneCell : Obligations.ByteWriteChangesOneCell := by
  unfold Obligations.ByteWriteChangesOneCell
  intro s a v ha
  refine ⟨_, memWrite1_inside ha v s, ?same, fun x hx => ?other, rfl⟩
  case same => rw [bufByte_write, if_pos rfl]
  case other => rw [bufByte_write, if_neg hx]

/-! ## Agreeing machines -/

/-- R80: with the last cell stored, `BUF` is the pending bytes and the new one. -/
theorem bufBlock_store_last {s : State} (hfill : s.fill.val = 63) (b : Byte) :
    bufBlock (s.setBuf (s.buf.write s.fill.val b)) = pending s ++ [b] := by
  rw [bufBlock_eq_pending]
  exact pending_store s b (by rw [hfill]; rfl)

/-- R92: the chaining value after closing a session, a function of the registers and the pending bytes. -/
def closingChain (s : State) : Chain :=
  if s.fill.val ≤ 55 then compress s.h (onlyBlock (pending s) s.len)
  else compress (compress s.h (spillFirst (pending s))) (spillSecond s.len)

/-- R90, R92: both forms of the Accepting path compute it. -/
theorem closeSession_closingChain {s : State} (hfill : s.fill.val < 64) :
    ∃ m, closeSession s = .next (closedState s (closingChain s) m) := by
  by_cases h55 : s.fill.val ≤ 55
  · obtain ⟨m, hclose, -⟩ := closeSession_oneBlock h55
    exact ⟨m, by rw [closingChain, if_pos h55, hclose]⟩
  · obtain ⟨m, hclose, -⟩ := closeSession_twoBlocks (by omega) hfill
    exact ⟨m, by rw [closingChain, if_neg h55, hclose]⟩

/-- The same, as an inversion. -/
theorem eq_closingChain {s : State} (hfill : s.fill.val < 64) {c : Chain} {m : Memory}
    (hclose : closeSession s = .next (closedState s c m)) : c = closingChain s := by
  obtain ⟨m', hclose'⟩ := closeSession_closingChain hfill
  rw [hclose'] at hclose
  have hh := congrArg State.h (Host.Outcome.next.inj hclose)
  rw [closedState_h, closedState_h] at hh
  exact hh.symm

/-- R80, R90, R111: every command leaves room in `BUF`. -/
theorem CommandEffect.fill_lt {i : Instr} {s t : State} (heffect : CommandEffect s i t) (hfill : s.fill.val < 64) :
    t.fill.val < 64 := by
  cases heffect with
  | raised _ => exact hfill
  | begun => exact Nat.zero_lt_succ _
  | overflowed _ _ _ => exact hfill
  | stored _ f _ _ _ hbelow => exact hbelow
  | filled _ _ _ _ _ _ => exact Nat.zero_lt_succ _
  | closed _ _ _ _ _ _ _ => exact Nat.zero_lt_succ _
  | shown _ _ => exact hfill

/-- The response port is no part of agreement. -/
theorem Agree.setRsp {s t : State} (h : Agree s t) (r r' : Option Response) : Agree (s.setRsp r) (t.setRsp r') :=
  ⟨h.h, h.fill, h.len, h.st, h.below⟩

/-- Nor are the host's inputs. -/
theorem Agree.setInbox {s t : State} (h : Agree s t) (x y : List HostInput) :
    Agree (s.setInbox x) (t.setInbox y) :=
  ⟨h.h, h.fill, h.len, h.st, h.below⟩

/-- With `FILL` 0 no byte is pending, so machines with equal registers agree. -/
theorem Agree.of_fill_zero {s t : State} (hh : s.h = t.h) (hs : s.fill = 0) (ht : t.fill = 0) (hlen : s.len = t.len)
    (hst : s.st = t.st) : Agree s t :=
  ⟨hh, hs.trans ht.symm, hlen, hst, fun _ => by simp [pending, hs, ht]⟩

/-- R92: agreeing machines close their sessions with one chaining value. -/
theorem Agree.closingChain_eq {s t : State} (h : Agree s t) (hst : s.st = .accepting) :
    closingChain s = closingChain t := by
  rw [closingChain, closingChain, h.h, h.fill, h.len, h.below hst]

/-- R80: agreeing machines that store the last byte of a block compress one block. -/
theorem Agree.filledBlock_eq {s t : State} (h : Agree s t) (hst : s.st = .accepting) (hfill : s.fill.val = 63)
    (b : Byte) :
    bufBlock (s.setBuf (s.buf.write s.fill.val b)) = bufBlock (t.setBuf (t.buf.write t.fill.val b)) := by
  rw [bufBlock_store_last hfill, bufBlock_store_last (h.fill ▸ hfill), h.below hst]

/-- R80: agreeing machines that store a byte agree on the bytes then pending. -/
theorem Agree.store {s t : State} (h : Agree s t) (hst : s.st = .accepting) {f : Fin 65}
    (hf : f.val = s.fill.val + 1) (b : Byte) :
    Agree (((s.setBuf (s.buf.write s.fill.val b)).setFill f).setLen (s.len + 8))
      (((t.setBuf (t.buf.write t.fill.val b)).setFill f).setLen (t.len + 8)) := by
  refine ⟨h.h, rfl, congrArg (· + 8) h.len, h.st, fun _ => ?_⟩
  have hpending : pending ((s.setBuf (s.buf.write s.fill.val b)).setFill f) =
      pending ((t.setBuf (t.buf.write t.fill.val b)).setFill f) := by
    rw [pending_store s b hf, pending_store t b (h.fill ▸ hf), h.below hst]
  exact hpending

/-- R51: what a command does in one machine it does in an agreeing one, with the same response. -/
theorem Agree.answers {i : Instr} {s s' t : State} (h : Agree s t) (heffect : CommandEffect s i s') :
    ∃ t', exec i t = .next t' ∧ s'.rsp = t'.rsp ∧ Agree s' t' := by
  cases heffect with
  | raised hg => exact ⟨_, exec_raised (h.st ▸ hg), rfl, h.setRsp _ _⟩
  | begun => exact ⟨_, exec_init t, rfl, .of_fill_zero rfl rfl rfl rfl rfl⟩
  | overflowed b hst hlen =>
    have hover : Agree (s.setSt .overflowed) (t.setSt .overflowed) :=
      ⟨h.h, h.fill, h.len, rfl, fun hacc => by simp at hacc⟩
    exact ⟨_, exec_feed_overflow (h.st ▸ hst) (h.len ▸ hlen) b, rfl, hover.setRsp _ _⟩
  | stored b f hst hlen hf hbelow =>
    exact ⟨_, exec_feed_below (h.st ▸ hst) (h.len ▸ hlen) (h.fill ▸ hf) hbelow b, rfl, (h.store hst hf b).setRsp _ _⟩
  | filled b c hst hlen hfill hc =>
    have hexec := exec_feed_last (h.st ▸ hst) (h.len ▸ hlen) (h.fill ▸ hfill) b
    rw [← h.h, ← h.filledBlock_eq hst hfill, ← hc] at hexec
    exact ⟨_, hexec, rfl, .of_fill_zero rfl rfl rfl (congrArg (· + 8) h.len) h.st⟩
  | closed c m d hst hclose hfill hanswer =>
    obtain ⟨m', hclose'⟩ := closeSession_closingChain (h.fill ▸ hfill)
    rw [← h.closingChain_eq hst, ← eq_closingChain hfill hclose] at hclose'
    have hagree : Agree (closedState s c m) (closedState t c m') := .of_fill_zero rfl rfl rfl h.len rfl
    refine ⟨(closedState t c m').setRsp (some { status := .ok, digest := d }), ?_, rfl, hagree.setRsp _ _⟩
    obtain ⟨rfl, rfl⟩ | ⟨rfl, rfl⟩ := hanswer
    · rw [exec_finalize_accepting (h.st ▸ hst), hclose', andThen_next, respondOk_eq]
    · rw [exec_digest_accepting (h.st ▸ hst), hclose', andThen_next, respondOk_eq, closedState_h]
  | shown hst hi =>
    refine ⟨t.setRsp (some { status := .ok, digest := some (payload s.h) }), ?_, rfl, h.setRsp _ _⟩
    rw [h.h]
    obtain rfl | rfl := hi
    · exact exec_render_finalized (h.st ▸ hst)
    · exact exec_digest_finalized (h.st ▸ hst)

/-- Settles O47: a command by its effect, an undecodable word by `step_illegal`. -/
theorem agreeingMachinesAnswerAlike : Obligations.AgreeingMachinesAnswerAlike := by
  unfold Obligations.AgreeingMachinesAnswerAlike
  intro s t w hfill h
  cases hd : decode w with
  | command i =>
    have htaken : Agree (s.setInbox []) (t.setInbox []) := h.setInbox [] []
    obtain ⟨s', hexec, heffect⟩ := exec_answers (s := s.setInbox []) hfill i
    obtain ⟨t', hexec', hrsp, hagree⟩ := htaken.answers heffect
    exact ⟨s', t', (step_command rfl hd).trans hexec, (step_command rfl hd).trans hexec', hrsp, hagree,
      heffect.fill_lt hfill⟩
  | illegal why =>
    exact ⟨_, _, step_illegal rfl hd, step_illegal rfl hd, rfl, (h.setInbox [] []).setRsp _ _, hfill⟩

end Sys2Proof.Machine

/-!
The encoding (30_encoding.md, R60 to R66): a word and its fields, the decoder and the opcode map, and the response that
each word gets.
-/

namespace Sys2Proof.Machine

/-- R60: a word is its three fields. -/
theorem append_fields (w : CmdWord) : opField w ++ zField w ++ dField w = w := by
  have hhigh : opField w ++ zField w = w.extractLsb' 8 8 := BitVec.extractLsb'_append_extractLsb'_eq_extractLsb' rfl
  rw [hhigh]
  exact (BitVec.extractLsb'_append_extractLsb'_eq_extractLsb' rfl).trans BitVec.extractLsb'_eq_self

theorem withoutOperand_eq_command {i j : Instr} {d : Byte} :
    withoutOperand i d = .command j ↔ i = j ∧ d = 0 := by
  unfold withoutOperand
  split
  case isTrue hd => rw [Decoded.command.injEq, and_iff_left hd]
  case isFalse hd => exact ⟨fun h => (by cases h), fun h => absurd h.2 hd⟩

theorem fields_of_withoutOperand {w : CmdWord} {i j : Instr} (h : withoutOperand j (dField w) = .command i)
    (hop : opField w = opcode j) (hz : zField w = 0) (hj : dataByte j = 0) :
    opField w = opcode i ∧ zField w = 0 ∧ dField w = dataByte i := by
  obtain ⟨rfl, hd⟩ := withoutOperand_eq_command.1 h
  exact ⟨hop, hz, hd.trans hj.symm⟩

/-- What the decoder checks of a word before it answers a command (R60 to R62). -/
theorem fields_of_decode {w : CmdWord} {i : Instr} (h : decode w = .command i) :
    opField w = opcode i ∧ zField w = 0 ∧ dField w = dataByte i := by
  unfold decode at h
  split at h
  case isFalse => cases h
  case isTrue hz =>
    split at h
    case h_1 hop => exact fields_of_withoutOperand h (BitVec.eq_of_toNat_eq hop) hz rfl
    case h_2 hop =>
      cases h
      exact ⟨BitVec.eq_of_toNat_eq hop, hz, rfl⟩
    case h_3 hop => exact fields_of_withoutOperand h (BitVec.eq_of_toNat_eq hop) hz rfl
    case h_4 hop => exact fields_of_withoutOperand h (BitVec.eq_of_toNat_eq hop) hz rfl
    case h_5 hop => exact fields_of_withoutOperand h (BitVec.eq_of_toNat_eq hop) hz rfl
    case h_6 => cases h

/-- A word with a command's fields is the command's word. -/
theorem eq_encode_of_fields {w : CmdWord} {i : Instr}
    (h : opField w = opcode i ∧ zField w = 0 ∧ dField w = dataByte i) : w = encode i := by
  obtain ⟨hop, hz, hd⟩ := h
  rw [← append_fields w, hop, hz, hd, encode]

theorem decode_eq_command_iff {w : CmdWord} {i : Instr} : decode w = .command i ↔ w = encode i :=
  ⟨fun h => eq_encode_of_fields (fields_of_decode h), fun h => h ▸ decode_encode i⟩

/-- Settles O1: the decoder reads exactly the fields that the encoder writes. -/
theorem decodeInvertsEncode : Obligations.DecodeInvertsEncode := by
  unfold Obligations.DecodeInvertsEncode
  intro w i
  exact decode_eq_command_iff

theorem encode_injective : Function.Injective encode := fun i j h => by
  have hj := decode_encode j
  rw [← h, decode_encode] at hj
  exact Decoded.command.inj hj

/-- The row of a command's name selects the command's word (R61). -/
theorem row_selects_encode (i : Instr) : ∃ r ∈ opMap, r.mnemonic = i.mnemonic ∧ r.selects (encode i) = true := by
  cases i with
  | init => exact Laws.RowSelectsEncoding.init
  | feed b => exact Laws.RowSelectsEncoding.feed b
  | finalize => exact Laws.RowSelectsEncoding.finalize
  | render => exact Laws.RowSelectsEncoding.render
  | digest => exact Laws.RowSelectsEncoding.digest

/-- Every mask of the opcode map covers `op` and `z`. -/
theorem opMap_mask : ∀ r ∈ opMap, opField r.mask = BitVec.allOnes 4 ∧ zField r.mask = BitVec.allOnes 4 := by
  decide

/-- A row selects words of its own `op` and `z` only. -/
theorem fields_of_selects {r : OpRow} {w : CmdWord} (hr : r ∈ opMap) (h : r.selects w = true) :
    opField w = opField r.value ∧ zField w = zField r.value := by
  obtain ⟨hop, hz⟩ := opMap_mask r hr
  have hvalue : w &&& r.mask = r.value := of_decide_eq_true h
  constructor
  · calc opField w = opField w &&& opField r.mask := by rw [hop, BitVec.and_allOnes]
      _ = opField r.value := by rw [← hvalue, opField, opField, opField, BitVec.extractLsb'_and]
  · calc zField w = zField w &&& zField r.mask := by rw [hz, BitVec.and_allOnes]
      _ = zField r.value := by rw [← hvalue, zField, zField, zField, BitVec.extractLsb'_and]

/-- The rows of the opcode map differ in `op`. -/
theorem opMap_disjoint : ∀ r ∈ opMap, ∀ r' ∈ opMap, opField r'.value = opField r.value → r' = r := by decide

/-- A row with a full mask selects its own word only. -/
theorem eq_value_of_selects {r : OpRow} {w : CmdWord} (hmask : r.mask = BitVec.allOnes 16) (h : r.selects w = true) :
    w = r.value := by
  rw [← of_decide_eq_true h, hmask, BitVec.and_allOnes]

/-- Each row but `FEED`'s has a full mask and the word of a command. -/
theorem opMap_rows : ∀ r ∈ opMap, r.value = 0x2000 ∨
    r.mask = BitVec.allOnes 16 ∧ ∃ i ∈ [Instr.init, .finalize, .render, .digest], r.value = encode i := by decide

/-- R61: a word that some row selects decodes. -/
theorem decode_of_selects {r : OpRow} {w : CmdWord} (hr : r ∈ opMap) (h : r.selects w = true) :
    ∃ i, decode w = .command i := by
  obtain hfeed | ⟨hmask, i, -, hvalue⟩ := opMap_rows r hr
  · obtain ⟨hop, hz⟩ := fields_of_selects hr h
    rw [hfeed] at hop hz
    exact ⟨.feed (dField w), decode_eq_command_iff.2 (eq_encode_of_fields ⟨hop, hz, rfl⟩)⟩
  · exact ⟨i, decode_eq_command_iff.2 ((eq_value_of_selects hmask h).trans hvalue)⟩

/-- The 260 commands: the four without an operand, and `FEED` of each byte. -/
def allCommands : List Instr :=
  [.init, .finalize, .render, .digest] ++ (List.finRange 256).map fun b => .feed (BitVec.ofFin b)

theorem mem_allCommands (i : Instr) : i ∈ allCommands := by
  cases i with
  | feed b => exact List.mem_append_right _ (List.mem_map.2 ⟨b.toFin, List.mem_finRange _, rfl⟩)
  | init => simp [allCommands]
  | finalize => simp [allCommands]
  | render => simp [allCommands]
  | digest => simp [allCommands]

theorem allCommands_nodup : allCommands.Nodup := by
  refine List.nodup_append.2 ⟨by decide, (List.nodup_finRange 256).map fun a b h => ?_, fun i hi j hj => ?_⟩
  · simpa using h
  · obtain ⟨b, -, rfl⟩ := List.mem_map.1 hj
    rintro rfl
    simp at hi

theorem allCommands_length : allCommands.length = 260 := by simp [allCommands]

/-- The numbers that the opcode table's decoder takes are the words of the commands. -/
theorem decodeTableWord_isSome_iff {k n : Nat} :
    (decodeTableWord k n).isSome = true ↔ ∃ i, (encode i).toNat = n := by
  constructor
  · intro h
    unfold decodeTableWord at h
    split at h
    case isFalse => cases h
    case isTrue hn =>
      cases hd : decode (BitVec.ofNat 16 n) with
      | command i => exact ⟨i, by rw [← decode_eq_command_iff.1 hd, BitVec.toNat_ofNat, Nat.mod_eq_of_lt hn]⟩
      | illegal why => simp [hd] at h
  · rintro ⟨i, rfl⟩
    rw [decodeTableWord, if_pos (encode i).isLt, BitVec.ofNat_toNat, BitVec.setWidth_eq, decode_encode]
    rfl

/-- The words that decode are the words of the 260 commands, each once. -/
theorem decodable_words_perm :
    ((List.range 65536).filter fun n => (decodeTableWord 16 n).isSome).Perm
      (allCommands.map fun i => (encode i).toNat) := by
  refine (List.perm_ext_iff_of_nodup (List.nodup_range.filter _)
    (allCommands_nodup.map (BitVec.toNat_injective.comp encode_injective))).2 fun n => ?_
  rw [List.mem_filter, decodeTableWord_isSome_iff, List.mem_range, List.mem_map]
  constructor
  · rintro ⟨-, i, hi⟩
    exact ⟨i, mem_allCommands i, hi⟩
  · rintro ⟨i, -, rfl⟩
    exact ⟨(encode i).isLt, i, rfl⟩

/-- Settles O2: rows are told apart by `op`, and the words that decode are the words of the 260 commands. -/
theorem opcodeMapSelectsDecodedRow : Obligations.OpcodeMapSelectsDecodedRow := by
  unfold Obligations.OpcodeMapSelectsDecodedRow
  refine ⟨fun w i hdecode => ?row, fun w r hr hselects => decode_of_selects hr hselects, ?count⟩
  case row =>
    obtain rfl := decode_eq_command_iff.1 hdecode
    obtain ⟨r, hr, hname, hselects⟩ := row_selects_encode i
    refine ⟨r, hr, hselects, hname, fun r' hr' hselects' => opMap_disjoint r hr r' hr' ?_⟩
    rw [← (fields_of_selects hr hselects).1, ← (fields_of_selects hr' hselects').1]
  case count => rw [decodable_words_perm.length_eq, List.length_map, allCommands_length]

/-- The words that decode, by their fields (R60, R61). -/
theorem decodes_iff {w : CmdWord} : (∃ i, decode w = .command i) ↔
    zField w = 0 ∧ (opField w = 2 ∨ opField w ∈ [1, 3, 4, 5] ∧ dField w = 0) := by
  constructor
  · rintro ⟨i, h⟩
    obtain ⟨hop, hz, hd⟩ := fields_of_decode h
    rw [hop, hd]
    cases i <;> simp [hz, opcode, dataByte]
  · rintro ⟨hz, hop | ⟨hop, hd⟩⟩
    · exact ⟨.feed (dField w), decode_eq_command_iff.2 (eq_encode_of_fields ⟨hop, hz, rfl⟩)⟩
    · have hcommand : ∀ op ∈ [(1 : BitVec 4), 3, 4, 5],
          ∃ i ∈ [Instr.init, .finalize, .render, .digest], op = opcode i ∧ 0 = dataByte i := by decide
      obtain ⟨i, -, hi, hi0⟩ := hcommand _ hop
      exact ⟨i, decode_eq_command_iff.2 (eq_encode_of_fields ⟨hi, hz, hd.trans hi0⟩)⟩

theorem illegal_iff_not_decodes {w : CmdWord} :
    (∃ why, decode w = .illegal why) ↔ ¬ ∃ i, decode w = .command i := by
  cases decode w <;> simp

/-- The fields of a word as numbers. -/
theorem opField_toNat (w : CmdWord) : (opField w).toNat = w.toNat / 4096 := by
  have := w.isLt
  rw [opField, BitVec.extractLsb'_toNat, Nat.shiftRight_eq_div_pow]
  omega

theorem zField_toNat (w : CmdWord) : (zField w).toNat = w.toNat / 256 % 16 := by
  rw [zField, BitVec.extractLsb'_toNat, Nat.shiftRight_eq_div_pow]

theorem dField_toNat (w : CmdWord) : (dField w).toNat = w.toNat % 256 := by
  rw [dField, BitVec.extractLsb'_toNat, Nat.shiftRight_zero]

/-- R63's three clauses. -/
theorem illegal_iff {w : CmdWord} : (∃ why, decode w = .illegal why) ↔
    (w.toNat / 4096 = 0 ∨ 6 ≤ w.toNat / 4096 ∨ w.toNat / 256 % 16 ≠ 0 ∨
      (w.toNat / 4096 ∈ [1, 3, 4, 5] ∧ w.toNat % 256 ≠ 0)) := by
  rw [illegal_iff_not_decodes, decodes_iff]
  simp only [List.mem_cons, List.not_mem_nil, or_false, ← BitVec.toNat_inj, opField_toNat, zField_toNat, dField_toNat,
    BitVec.ofNat_eq_ofNat, BitVec.toNat_ofNat]
  omega

/-- Settles O3. -/
theorem illegalWordsAnsweredAndHarmless : Obligations.IllegalWordsAnsweredAndHarmless := by
  unfold Obligations.IllegalWordsAnsweredAndHarmless
  exact ⟨fun w => illegal_iff, fun s w rest why hinbox hdecode => step_illegal hinbox hdecode, rfl,
    illegal_iff.2 (by decide), illegal_iff.2 (by decide)⟩

/-- Above its last word a row of words reads as the words before it. -/
theorem extract_append_word {n : Nat} (x : BitVec n) (y : Word) (k : Nat) :
    (x ++ y).extractLsb' (k + 32) 32 = x.extractLsb' k 32 := by
  rw [BitVec.extractLsb'_append_eq_of_le (by omega), Nat.add_sub_cancel]

/-- R65: the words of a payload are the registers, `H[0]` first. -/
theorem payload_words (h : Chain) :
    (payload h).extractLsb' 128 32 = h.h0 ∧ (payload h).extractLsb' 96 32 = h.h1 ∧
    (payload h).extractLsb' 64 32 = h.h2 ∧ (payload h).extractLsb' 32 32 = h.h3 ∧
    (payload h).extractLsb' 0 32 = h.h4 := by
  have below4 (k : Nat) : (payload h).extractLsb' (k + 32) 32 = (h.h0 ++ h.h1 ++ h.h2 ++ h.h3).extractLsb' k 32 :=
    extract_append_word _ h.h4 k
  have below3 (k : Nat) : (payload h).extractLsb' (k + 32 + 32) 32 = (h.h0 ++ h.h1 ++ h.h2).extractLsb' k 32 :=
    (below4 (k + 32)).trans (extract_append_word _ h.h3 k)
  have below2 (k : Nat) : (payload h).extractLsb' (k + 32 + 32 + 32) 32 = (h.h0 ++ h.h1).extractLsb' k 32 :=
    (below3 (k + 32)).trans (extract_append_word _ h.h2 k)
  exact ⟨(below2 32).trans BitVec.extractLsb'_append_eq_left, (below2 0).trans BitVec.extractLsb'_append_eq_right,
    (below3 0).trans BitVec.extractLsb'_append_eq_right, (below4 0).trans BitVec.extractLsb'_append_eq_right,
    BitVec.extractLsb'_append_eq_right⟩

/-- No check raises `OK` (R64). -/
theorem commandGuard_ne_ok (st : Lifecycle) (i : Instr) : commandGuard st i ≠ some .ok := by
  cases i <;> cases st <;> simp [commandGuard, inputGuard, renderGuard, digestGuard]

/-- R65: which commands answer a payload, and which payload. -/
theorem CommandEffect.payload_eq {i : Instr} {s t : State} (heffect : CommandEffect s i t) {r : Response} {d : Payload}
    (hr : t.rsp = some r) (hd : r.digest = some d) :
    r.status = .ok ∧ t.st = .finalized ∧ d = payload t.h ∧ (i = .render ∨ i = .digest) := by
  cases heffect with
  | raised => cases hr; cases hd
  | begun => cases hr; cases hd
  | overflowed => cases hr; cases hd
  | stored => cases hr; cases hd
  | filled => cases hr; cases hd
  | closed c m d' hst hclose hfill hanswer =>
    cases hr
    obtain ⟨-, rfl⟩ | ⟨hi, rfl⟩ := hanswer
    · cases hd
    · exact ⟨rfl, rfl, (Option.some.inj hd).symm, .inr hi⟩
  | shown hst hi =>
    cases hr
    exact ⟨rfl, hst, (Option.some.inj hd).symm, hi⟩

/-- R65: an `OK` to `RENDER` or `DIGEST` carries a payload. -/
theorem CommandEffect.has_payload {i : Instr} {s t : State} (heffect : CommandEffect s i t)
    (hi : i = .render ∨ i = .digest) {r : Response} (hr : t.rsp = some r) (hok : r.status = .ok) :
    r.digest ≠ none := by
  cases heffect with
  | raised hg =>
    cases hr
    exact absurd (hg.trans (congrArg some hok)) (commandGuard_ne_ok _ _)
  | closed c m d hst hclose hfill hanswer =>
    cases hr
    obtain ⟨rfl, -⟩ | ⟨-, rfl⟩ := hanswer
    · simp at hi
    · exact Option.some_ne_none _
  | shown =>
    cases hr
    exact Option.some_ne_none _
  | begun => simp at hi
  | overflowed => simp at hi
  | stored => simp at hi
  | filled => simp at hi

/-- R65: a payload is on the port only after a step on the word of `RENDER` or `DIGEST`. -/
theorem step_shows_payload {s t : State} (hstep : step s = .next t) {r : Response} {d : Payload} (hr : t.rsp = some r)
    (hd : r.digest = some d) :
    r.status = .ok ∧ t.st = .finalized ∧ d = payload t.h ∧
      ∃ w rest, s.inbox = .command w :: rest ∧ (decode w = .command .render ∨ decode w = .command .digest) := by
  obtain ⟨-, rfl⟩ | ⟨rest, -, rfl⟩ | ⟨rest, -, rfl⟩ | ⟨w, rest, why, -, -, rfl⟩ |
    ⟨w, rest, i, hinbox, hdecode, hexec⟩ := step_cases hstep
  · cases hr
  · cases hr
  · cases hr
  · cases hr; cases hd
  · obtain ⟨hok, hst, hpayload, hi⟩ := (exec_effect hexec).payload_eq hr hd
    refine ⟨hok, hst, hpayload, w, rest, hinbox, ?_⟩
    rwa [hdecode, Decoded.command.injEq, Decoded.command.injEq]

/-- Settles O30: an idle boundary, a reset and an undecodable word show no payload; a command goes by its effect. -/
theorem payloadOnlyOfFinalizedDigest : Obligations.PayloadOnlyOfFinalizedDigest := by
  unfold Obligations.PayloadOnlyOfFinalizedDigest
  refine ⟨fun s t r hstep hr => ⟨fun d hd => ?payload, fun hnone => ?zeros⟩,
    fun s t w rest r hinbox hw hstep hr hok => ?answer⟩
  case payload =>
    obtain ⟨hok, hst, rfl, hcommand⟩ := step_shows_payload hstep hr hd
    obtain ⟨h0, h1, h2, h3, h4⟩ := payload_words t.h
    exact ⟨hok, hst, by rw [rspDigestPins, hr, Option.map_some, hd, Option.getD_some], h0, h1, h2, h3, h4, hcommand⟩
  case zeros => rw [rspDigestPins, hr, Option.map_some, hnone, Option.getD_none]
  case answer =>
    have hanswer {i : Instr} (hi : i = .render ∨ i = .digest) (hdecode : decode w = .command i) : r.digest ≠ none :=
      (exec_effect ((step_command hinbox hdecode).symm.trans hstep)).has_payload hi hr hok
    exact hw.elim (hanswer (.inl rfl)) (hanswer (.inr rfl))

/-- No command writes the host's inputs. -/
theorem CommandEffect.inbox_eq {i : Instr} {s t : State} (heffect : CommandEffect s i t) : t.inbox = s.inbox := by
  cases heffect <;> rfl

/-- R66, R143: a step on a word answers it and takes it. -/
theorem step_answers {s : State} {w : CmdWord} {rest : List HostInput} (h : EngineInv s)
    (hinbox : s.inbox = .command w :: rest) : ∃ t r, step s = .next t ∧ t.rsp = some r ∧ t.inbox = rest := by
  cases hdecode : decode w with
  | command i =>
    obtain ⟨t, hexec, heffect⟩ := exec_answers (s := s.setInbox rest) h.fillBelow64 i
    obtain ⟨r, hr, -⟩ := heffect.lifecycle (h.setInbox rest)
    exact ⟨t, r, (step_command hinbox hdecode).trans hexec, hr, heffect.inbox_eq⟩
  | illegal why => exact ⟨_, _, step_illegal hinbox hdecode, rfl, rfl⟩

/-- R66: as many responses as words. -/
theorem responses_length {s : State} (h : EngineInv s) (ws : List CmdWord) :
    (responses ws s).length = ws.length := by
  induction ws generalizing s with
  | nil => rfl
  | cons w ws ih =>
    have hword : EngineInv (s.setInbox [.command w]) := h.setInbox _
    obtain ⟨t, r, hstep, hr, -⟩ := step_answers hword rfl
    have ht : EngineInv t := stepKeepsInvariant _ t hword hstep
    rw [responses, hstep]
    simp only [hr, Option.toList_some, List.singleton_append, List.length_cons, ih ht]

/-- Settles O33. -/
theorem everyWordAnsweredOnce : Obligations.EveryWordAnsweredOnce := by
  unfold Obligations.EveryWordAnsweredOnce
  exact ⟨fun s w rest h hinbox => step_answers h hinbox, fun ws s h => responses_length h ws⟩

/-- Settles O4: each word is read against the command's encoding. -/
theorem specWordsDecode : Obligations.SpecWordsDecode := by
  unfold Obligations.SpecWordsDecode
  exact ⟨decode_encode .init, decode_encode (.feed 0x61), decode_encode (.feed 0x80), decode_encode (.feed 0xff),
    decode_encode .finalize, decode_encode .render, decode_encode .digest⟩

/-- The code that is on `rsp_status` (R64). -/
theorem rspStatusPins_eq {t : State} {r : Response} (hr : t.rsp = some r) : rspStatusPins t = some r.status.code := by
  rw [rspStatusPins, hr, Option.map_some]

/-- R64: codes 5, 6 and 7 are never produced. -/
theorem Status.code_le (e : Status) : e.code.toNat ≤ 4 := by
  cases e <;> decide

/-- Settles O26. -/
theorem statusCodesOnPins : Obligations.StatusCodesOnPins := by
  unfold Obligations.StatusCodesOnPins
  refine ⟨fun t r hr => ?_, fun t c hc => ?_⟩
  · rw [rspStatusPins_eq hr]
    refine ⟨?_, ?_, ?_, ?_, ?_⟩ <;> exact fun h => by rw [h, Status.code]
  · obtain ⟨r, -, rfl⟩ := Option.map_eq_some_iff.1 hc
    exact r.status.code_le

end Sys2Proof.Machine

/-!
The Buffer Accumulator (41_feed.md, R80 to R86): `FEED` case by case, its overflow test, and sequences of `FEED`.
-/

namespace Sys2Proof.Machine

/-! ## FEED -/

/-- R61: the word of `FEED b`. -/
theorem encode_feed (b : Byte) : encode (.feed b) = 0x2000 ||| b.setWidth 16 :=
  (BitVec.append_def (2#4 ++ 0#4) b).trans (congrArg₂ (· ||| ·) rfl (BitVec.setWidth'_eq _))

/-- The state after the last byte of a block, as a record: `c` the new chaining value, `m` the cells. -/
theorem filledState_eq (s : State) (c : Chain) (m : Memory) (l : BitVec 64) (r : Option Response) :
    ((((s.setBuf m).setLen l).setH c).setFill 0).setRsp r =
      { s with h := c, buf := m, fill := 0, len := l, rsp := r } := id rfl

/-- Settles O18: one equation of `exec` for each case. -/
theorem feedMeaning : Obligations.FeedMeaning := by
  unfold Obligations.FeedMeaning
  intro b s
  refine ⟨encode_feed b, fun hst => ?overflowed, fun hst => ?finalized, fun hst hlen => ?noRoom,
    fun hst hlen hfill => ?stored, fun hst hlen hfill => ?filled⟩
  case overflowed => exact exec_raised (by rw [hst]; rfl)
  case finalized => exact exec_raised (by rw [hst]; rfl)
  case noRoom => exact exec_feed_overflow hst (by omega) b
  case stored =>
    have hbelow : s.fill.val + 1 < 64 := by omega
    exact ⟨⟨s.fill.val + 1, by omega⟩, rfl, exec_feed_below hst hlen rfl hbelow b⟩
  case filled => rw [exec_feed_last hst hlen hfill, filledState_eq, hfill, State.setBuf]

/-- R80 where R82's test passes: the session stays open, and `LEN` grows by exactly 8. -/
theorem CommandEffect.feed_accepted {b : Byte} {s t : State} (heffect : CommandEffect s (.feed b) t)
    (hst : s.st = .accepting) (hroom : s.len.toNat + 8 ≤ 2 ^ 64 - 1) :
    t.st = .accepting ∧ t.len.toNat = s.len.toNat + 8 := by
  cases heffect with
  | raised hg => rw [commandGuard, hst] at hg; cases hg
  | overflowed _ _ hlen => omega
  | stored _ f _ hlen _ _ => exact ⟨hst, len_add_eight hlen⟩
  | filled _ c _ hlen _ _ => exact ⟨hst, len_add_eight hlen⟩
  | closed _ _ _ _ _ _ hanswer => simp at hanswer
  | shown _ hi => simp at hi

/-- Settles O20: by the exact form of the test, `LEN` is full or the byte is accepted. -/
theorem feedOverflowDetection : Obligations.FeedOverflowDetection := by
  unfold Obligations.FeedOverflowDetection
  intro b s h hst
  have hoverflows (hfull : s.len.toNat = 2 ^ 64 - 8) := exec_feed_overflow hst (h.len_full_iff.2 hfull) b
  have haccepts {t : State} (hexec : exec (.feed b) s = .next t) (hfull : s.len.toNat ≠ 2 ^ 64 - 8) :
      t.st = .accepting ∧ t.len.toNat = s.len.toNat + 8 := by
    have hnot := mt h.len_full_iff.1 hfull
    exact (exec_effect hexec).feed_accepted hst (by omega)
  refine ⟨⟨fun ⟨t, hexec, hover⟩ => ?detected, fun hfull => ⟨_, hoverflows hfull, rfl⟩⟩, hoverflows,
    fun hfull => ?counted, fun m hfed => ?bytes⟩
  case detected =>
    by_contra hfull
    obtain ⟨haccepting, -⟩ := haccepts hexec hfull
    rw [haccepting] at hover
    cases hover
  case counted =>
    obtain ⟨t, hexec, -⟩ := exec_answers h.fillBelow64 (.feed b)
    exact ⟨t, hexec, (haccepts hexec hfull).2⟩
  case bytes =>
    rw [hfed.len]
    omega

/-! ## FEEDS: the responses -/

/-- The responses do not depend on what the host had presented before. -/
theorem responses_setInbox (ws : List CmdWord) (s : State) (x : List HostInput) :
    responses ws (s.setInbox x) = responses ws s := by
  cases ws with
  | nil => rfl
  | cons w ws => rw [responses, responses, setInbox_setInbox]

/-- R66: a command that completes gives its response, and the next words go to the state it left. -/
theorem responses_encode_cons {i : Instr} {s t : State} (hexec : exec i s = .next t) (ws : List CmdWord) :
    responses (encode i :: ws) s = t.rsp.toList ++ responses ws t := by
  have hstep : step (s.setInbox [.command (encode i)]) = .next (t.setInbox []) := by
    rw [step_command rfl (decode_encode i), setInbox_setInbox, exec_setInbox, hexec, withInbox_next]
  rw [responses, hstep]
  simp only [State.setInbox_rsp, responses_setInbox]

/-- R85: a status other than `OK` is the result, whatever comes after it. -/
theorem feedsStatus_cons_failed {r : Response} (hr : r.status ≠ .ok) (rs : List Response) :
    feedsStatus (r :: rs) = r.status := by
  simp [feedsStatus, hr]

theorem feedsStatus_cons_ok {r : Response} (hr : r.status = .ok) (rs : List Response) :
    feedsStatus (r :: rs) = feedsStatus rs := by
  simp [feedsStatus, hr]

/-- R82, R83: a `FEED` that fails leaves an `ST` in which `FEED` raises the very status it has put on the port. -/
theorem CommandEffect.feed_failed {b : Byte} {s t : State} (heffect : CommandEffect s (.feed b) t) {r : Response}
    (hrsp : t.rsp = some r) (hr : r.status ≠ .ok) :
    inputGuard t.st = some r.status ∧ t.rsp = some { status := r.status, digest := none } := by
  cases heffect with
  | raised hg => cases hrsp; exact ⟨hg, rfl⟩
  | overflowed _ _ _ => cases hrsp; exact ⟨rfl, rfl⟩
  | stored _ _ _ _ _ _ => cases hrsp; exact absurd rfl hr
  | filled _ _ _ _ _ _ => cases hrsp; exact absurd rfl hr
  | closed _ _ _ _ _ _ hanswer => simp at hanswer
  | shown _ hi => simp at hi

/-- Where `FEED` raises the status that stands on the port already, `FEEDS` changes nothing at all. -/
theorem runInstrs_feeds_raising {t : State} {e : Status} (hg : inputGuard t.st = some e)
    (hrsp : t.rsp = some { status := e, digest := none }) (bs : List Byte) : runInstrs (feeds bs) t = .next t := by
  induction bs with
  | nil => rfl
  | cons b bs ih =>
    have hexec : exec (.feed b) t = .next t := by
      rw [exec_raised (i := .feed b) hg, ← hrsp]
      rfl
    rw [feeds, List.map_cons, runInstrs, hexec, andThen_next]
    exact ih

/-- Settles O45. -/
theorem feedsFailAlike : Obligations.FeedsFailAlike := by
  unfold Obligations.FeedsFailAlike
  have hresponses {b : Byte} {s t : State} {r : Response} (hexec : exec (.feed b) s = .next t) (hrsp : t.rsp = some r)
      (bs : List Byte) :
      responses (assemble (feeds (b :: bs))) s = r :: responses (assemble (feeds bs)) t := by
    rw [feeds, List.map_cons, assemble, List.map_cons, responses_encode_cons hexec, hrsp]
    rfl
  refine ⟨fun s => rfl, fun b bs s t r hexec hrsp hr => ⟨?unchanged, ?status⟩, fun b bs s t r hexec hrsp hr => ?rest⟩
  case unchanged =>
    obtain ⟨hg, hport⟩ := (exec_effect hexec).feed_failed hrsp hr
    exact runInstrs_feeds_raising hg hport bs
  case status => rw [hresponses hexec hrsp, feedsStatus_cons_failed hr]
  case rest => rw [hresponses hexec hrsp, feedsStatus_cons_ok hr]

/-! ## FEEDS: the state -/

/-- Two command sequences one after the other are their concatenation. -/
theorem runInstrs_append (is js : List Instr) (s : State) :
    runInstrs (is ++ js) s = andThen (runInstrs is s) (runInstrs js) := by
  induction is generalizing s with
  | nil => rfl
  | cons i is ih =>
    rw [List.cons_append, runInstrs, runInstrs, andThen_assoc]
    exact congrArg _ (funext ih)

/-- R86: `FEEDS x` and then `FEEDS y` are one command sequence. -/
theorem runInstrs_feeds_append {x y : List Byte} {s u : State} (hx : runInstrs (feeds x) s = .next u) :
    runInstrs (feeds (x ++ y)) s = runInstrs (feeds y) u := by
  rw [feeds, List.map_append, runInstrs_append, ← feeds, hx, andThen_next, feeds]

/-- With room in `BUF`, as in every state of a run, commands complete and leave room. -/
theorem runInstrs_answers {s : State} (hfill : s.fill.val < 64) (is : List Instr) :
    ∃ t, runInstrs is s = .next t ∧ t.fill.val < 64 := by
  induction is generalizing s with
  | nil => exact ⟨s, rfl, hfill⟩
  | cons i is ih =>
    obtain ⟨u, hexec, heffect⟩ := exec_answers hfill i
    obtain ⟨t, hrun, ht⟩ := ih (heffect.fill_lt hfill)
    exact ⟨t, by rw [runInstrs, hexec, andThen_next, hrun], ht⟩

/-- R85 in a session fed `m`: `FEEDS x` alone. -/
theorem Fed.runInstrs_feeds_alone {m x : List Byte} {s : State} (h : Fed m s) (hm : (m ++ x).length ≤ 2 ^ 61 - 1) :
    ∃ u, runInstrs (feeds x) s = .next u ∧ Fed (m ++ x) u := by
  obtain ⟨u, hu, hrun⟩ := h.runInstrs_feeds hm []
  rw [List.append_nil] at hrun
  exact ⟨u, hrun, hu⟩

/-- Settles O46. -/
theorem feedsChunkingInvariant : Obligations.FeedsChunkingInvariant := by
  unfold Obligations.FeedsChunkingInvariant
  refine ⟨fun x y s h => ?completes, fun m x y s h hm => ?session⟩
  case completes =>
    obtain ⟨u, hx, hfill⟩ := runInstrs_answers h.fillBelow64 (feeds x)
    obtain ⟨t, hy, -⟩ := runInstrs_answers hfill (feeds y)
    exact ⟨u, t, hx, hy, (runInstrs_feeds_append hx).trans hy⟩
  case session =>
    have hmx : (m ++ x).length ≤ 2 ^ 61 - 1 := by
      rw [List.length_append] at hm
      omega
    obtain ⟨u, hx, hu⟩ := h.runInstrs_feeds_alone hmx
    obtain ⟨t, hy, ht⟩ := hu.runInstrs_feeds_alone hm
    obtain ⟨d, hdigest, -, hrsp⟩ := ht.digest
    exact ⟨u, t, d, hx, hu, hy, ht, (runInstrs_feeds_append hx).trans hy, hdigest, hrsp⟩

end Sys2Proof.Machine

/-!
The Padder (42_finalize.md, R90 to R94): `FINALIZE` in every `ST`.
-/

namespace Sys2Proof.Machine

/-- R90: when accepting, `FINALIZE` answers `OK` in the state that closing the session leaves. -/
theorem exec_finalize_of_closeSession {s : State} (hst : s.st = .accepting) {c : Chain} {m : Memory}
    (hclose : closeSession s = .next (closedState s c m)) :
    exec .finalize s =
      .next { s with h := c, buf := m, fill := 0, st := .finalized, rsp := some { status := .ok, digest := none } } := by
  rw [exec_finalize_accepting hst, hclose, andThen_next, respondOk_eq, closedState_setRsp]

/-- Settles O21: the two raising states, then one closing path for each of R92's two forms of the padding. -/
theorem finalizeMeaning : Obligations.FinalizeMeaning := by
  unfold Obligations.FinalizeMeaning
  refine ⟨by decide, fun s => ⟨fun hst => ?overflowed, fun hst => ?finalized, fun hst hfill => ?oneBlock,
    fun hst hspill hfill => ?twoBlocks⟩⟩
  case overflowed => exact exec_raised (by rw [hst]; rfl)
  case finalized => exact exec_raised (by rw [hst]; rfl)
  case oneBlock =>
    obtain ⟨m, hclose, -, hblock, -⟩ := closeSession_oneBlock hfill
    exact ⟨m, exec_finalize_of_closeSession hst hclose, (bufBlock_closedState s _ m).symm.trans hblock⟩
  case twoBlocks =>
    obtain ⟨m, hclose, -, hblock, -⟩ := closeSession_twoBlocks hspill (by omega)
    exact ⟨m, exec_finalize_of_closeSession hst hclose, (bufBlock_closedState s _ m).symm.trans hblock⟩

end Sys2Proof.Machine

/-!
The Mixer (43_compress.md, R100 to R113): 32-bit arithmetic, the schedule, the rounds, and the 16-word window.
-/

namespace Sys2Proof.Machine

/-! ## Arithmetic -/

theorem add32_toNat (xs : List Word) : (add32 xs).toNat = (xs.map BitVec.toNat).sum % 2 ^ 32 :=
  BitVec.toNat_ofNat _ _

theorem add32_perm {xs ys : List Word} (h : xs.Perm ys) : add32 xs = add32 ys := by
  rw [add32, add32, (h.map BitVec.toNat).sum_eq]

/-- R100: a partial sum may be reduced before the rest is added. -/
theorem add32_append (xs ys : List Word) : add32 (xs ++ ys) = add32 [add32 xs, add32 ys] := by
  apply BitVec.eq_of_toNat_eq
  simp only [add32_toNat, List.map_append, List.map_cons, List.map_nil, List.sum_append, List.sum_cons, List.sum_nil,
    Nat.add_zero]
  exact Nat.add_mod _ _ _

/-- Settles O6. -/
theorem add32SumsModulo : Obligations.Add32SumsModulo := by
  unfold Obligations.Add32SumsModulo
  exact ⟨add32_toNat, fun _ _ => add32_perm, add32_append, by decide⟩

theorem rotl32_eq_rotateLeft {n : Nat} (hn : n < 32) (x : Word) : rotl32 x n = x.rotateLeft n := by
  rw [BitVec.rotateLeft_def, Nat.mod_eq_of_lt hn, rotl32]

/-- R101's formula: the two parts of the rotated word share no bit, so their disjunction is their sum. -/
theorem rotl32_toNat {n : Nat} (hn : n ≤ 32) (x : Word) :
    (rotl32 x n).toNat = x.toNat * 2 ^ n % 2 ^ 32 + x.toNat / 2 ^ (32 - n) := by
  have hpow : 2 ^ 32 = 2 ^ n * 2 ^ (32 - n) := by rw [← pow_add, Nat.add_sub_cancel' hn]
  have hhigh : x.toNat * 2 ^ n % 2 ^ 32 = 2 ^ n * (x.toNat % 2 ^ (32 - n)) := by
    rw [hpow, Nat.mul_comm, Nat.mul_mod_mul_left]
  have hlow : x.toNat / 2 ^ (32 - n) < 2 ^ n :=
    Nat.div_lt_of_lt_mul (by rw [Nat.mul_comm, ← hpow]; exact x.isLt)
  rw [rotl32, BitVec.toNat_or, BitVec.toNat_shiftLeft, BitVec.toNat_ushiftRight, Nat.shiftLeft_eq,
    Nat.shiftRight_eq_div_pow, hhigh, Nat.two_pow_add_eq_or_of_lt hlow]

/-- R101's bit view: the bits that pass the top come back at the bottom. -/
theorem rotl32_getLsbD {n i : Nat} (hn : n < 32) (hi : i < 32) (x : Word) :
    (rotl32 x n).getLsbD ((i + n) % 32) = x.getLsbD i := by
  rw [rotl32_eq_rotateLeft hn, BitVec.getLsbD_rotateLeft_of_le hn]
  by_cases hwrap : i + n < 32
  · rw [Nat.mod_eq_of_lt hwrap, decide_eq_false (by omega), cond_false, decide_eq_true hwrap, Bool.true_and,
      Nat.add_sub_cancel]
  · have hmod : (i + n) % 32 = i + n - 32 := by omega
    rw [hmod, decide_eq_true (by omega), cond_true]
    congr 1
    omega

/-- Settles O7. -/
theorem rotl32RotatesBits : Obligations.Rotl32RotatesBits := by
  unfold Obligations.Rotl32RotatesBits
  intro x n _ hn
  exact ⟨rotl32_toNat (by omega) x, fun i hi => rotl32_getLsbD (by omega) hi x⟩

/-! ## Stage functions -/

/-- R103, "choose". -/
theorem stageFn_zero_getLsbD (b c d : Word) {i : Nat} (hi : i < 32) :
    (stageFn 0 b c d).getLsbD i = if b.getLsbD i then c.getLsbD i else d.getLsbD i := by
  rw [stageFn, BitVec.getLsbD_or, BitVec.getLsbD_and, BitVec.getLsbD_and, BitVec.getLsbD_not, decide_eq_true hi]
  cases b.getLsbD i <;> simp

/-- R103, "parity". -/
theorem parity_getLsbD (b c d : Word) (i : Nat) :
    (b ^^^ c ^^^ d).getLsbD i = (b.getLsbD i ^^ c.getLsbD i ^^ d.getLsbD i) := by
  rw [BitVec.getLsbD_xor, BitVec.getLsbD_xor]

/-- R103, "majority", as a disjunction. -/
theorem stageFn_two_getLsbD (b c d : Word) (i : Nat) :
    (stageFn 2 b c d).getLsbD i =
      (b.getLsbD i && c.getLsbD i || b.getLsbD i && d.getLsbD i || c.getLsbD i && d.getLsbD i) := by
  rw [stageFn, BitVec.getLsbD_or, BitVec.getLsbD_or, BitVec.getLsbD_and, BitVec.getLsbD_and, BitVec.getLsbD_and]

theorem majority_eq_decide : ∀ x y z : Bool,
    (x && y || x && z || y && z) = decide (2 ≤ x.toNat + y.toNat + z.toNat) := by decide

theorem majority_eq_xor : ∀ x y z : Bool,
    (x && y || x && z || y && z) = ((x && y) ^^ (x && z) ^^ (y && z)) := by decide

theorem choose_eq_xor : ∀ x y z : Bool, (if x then y else z) = (z ^^ (x && (y ^^ z))) := by decide

theorem stageFn_zero_eq_xor (b c d : Word) : stageFn 0 b c d = d ^^^ (b &&& (c ^^^ d)) := by
  refine BitVec.eq_of_getLsbD_eq fun i hi => ?_
  rw [stageFn_zero_getLsbD b c d hi, BitVec.getLsbD_xor, BitVec.getLsbD_and, BitVec.getLsbD_xor, choose_eq_xor]

theorem stageFn_two_eq_xor (b c d : Word) : stageFn 2 b c d = (b &&& c) ^^^ (b &&& d) ^^^ (c &&& d) := by
  refine BitVec.eq_of_getLsbD_eq fun i _ => ?_
  rw [stageFn_two_getLsbD, parity_getLsbD, BitVec.getLsbD_and, BitVec.getLsbD_and, BitVec.getLsbD_and, majority_eq_xor]

/-- Settles O8. -/
theorem stageFunctionsBitwise : Obligations.StageFunctionsBitwise := by
  unfold Obligations.StageFunctionsBitwise
  refine ⟨fun b c d i hi => ⟨stageFn_zero_getLsbD b c d hi, parity_getLsbD b c d i, ?majority, parity_getLsbD b c d i⟩,
    stageFn_zero_eq_xor, stageFn_two_eq_xor, fun t ht => ?stages⟩
  case majority => rw [stageFn_two_getLsbD, majority_eq_decide]
  case stages =>
    rw [stage]
    omega

/-! ## The schedule -/

/-- The first `16 + n` words of the schedule of `b`, in order. `schedule` is the case `n = 64`; the window of R112 goes on
past it. -/
def scheduleWords (b : Block) (n : Nat) : List Word :=
  (expandSchedule n ((List.range 16).map (blockWord b)).reverse).reverse

theorem schedule_eq_scheduleWords (b : Block) : schedule b = scheduleWords b 64 := id rfl

theorem scheduleWords_zero (b : Block) : scheduleWords b 0 = (List.range 16).map (blockWord b) := by
  rw [scheduleWords, expandSchedule, List.reverse_reverse]

/-- The recursion of `expandSchedule` taken apart at its last step. -/
theorem expandSchedule_succ (n : Nat) (recent : List Word) :
    expandSchedule (n + 1) recent = nextScheduleWord (expandSchedule n recent) :: expandSchedule n recent := by
  induction n generalizing recent with
  | zero => rfl
  | succ n ih => rw [expandSchedule, ih, expandSchedule]

/-- In a list of `16 + n` words taken last one first, R106's operands are the words `n + 13`, `n + 8`, `n + 2` and `n`. -/
theorem nextScheduleWord_reverse {ws : List Word} {n : Nat} (hlen : ws.length = 16 + n) :
    nextScheduleWord ws.reverse =
      rotl32 (ws.getD (n + 13) 0 ^^^ ws.getD (n + 8) 0 ^^^ ws.getD (n + 2) 0 ^^^ ws.getD n 0) 1 := by
  have hread {k j : Nat} (hkj : k + j = 15 + n) : ws.reverse.getD k 0 = ws.getD j 0 := by
    rw [List.getD_reverse k (by omega), hlen, show 16 + n - 1 - k = j by omega]
  rw [nextScheduleWord, hread (j := n + 13) (by omega), hread (j := n + 8) (by omega), hread (j := n + 2) (by omega),
    hread (j := n) (by omega)]

theorem scheduleWords_succ (b : Block) (n : Nat) :
    scheduleWords b (n + 1) = scheduleWords b n ++ [nextScheduleWord (scheduleWords b n).reverse] := by
  rw [scheduleWords, expandSchedule_succ, List.reverse_cons, scheduleWords, List.reverse_reverse]

@[simp] theorem scheduleWords_length (b : Block) (n : Nat) : (scheduleWords b n).length = 16 + n := by
  induction n with
  | zero => rw [scheduleWords_zero, List.length_map, List.length_range]
  | succ n ih => rw [scheduleWords_succ, List.length_append, ih, List.length_singleton, Nat.add_assoc]

theorem schedule_length (b : Block) : (schedule b).length = 80 := by
  rw [schedule_eq_scheduleWords, scheduleWords_length]

/-- Expansion leaves the words it has as they are. -/
theorem scheduleWords_getD_of_le (b : Block) {m n t : Nat} (hmn : m ≤ n) (ht : t < 16 + m) :
    (scheduleWords b n).getD t 0 = (scheduleWords b m).getD t 0 := by
  induction n, hmn using Nat.le_induction with
  | base => rfl
  | succ n hmn ih =>
    rw [scheduleWords_succ, List.getD_append _ _ _ _ (by rw [scheduleWords_length]; omega), ih]

/-- So `W[t]` is the same in any two expansions that have it. -/
theorem scheduleWords_getD_eq (b : Block) {m n t : Nat} (hm : t < 16 + m) (hn : t < 16 + n) :
    (scheduleWords b m).getD t 0 = (scheduleWords b n).getD t 0 := by
  obtain hmn | hnm := Nat.le_total m n
  · exact (scheduleWords_getD_of_le b hmn hm).symm
  · exact scheduleWords_getD_of_le b hnm hn

/-- R105: the words loaded. -/
theorem schedule_getD_load (b : Block) {i : Nat} (hi : i < 16) : (schedule b).getD i 0 = blockWord b i := by
  rw [schedule_eq_scheduleWords, scheduleWords_getD_of_le b (Nat.zero_le 64) hi, scheduleWords_zero,
    List.getD_eq_getElem _ _ (by simpa using hi), List.getElem_map, List.getElem_range]

/-- R106: the words expanded. -/
theorem schedule_getD_expand (b : Block) {n : Nat} (hn : n < 64) :
    (schedule b).getD (n + 16) 0 =
      rotl32 ((schedule b).getD (n + 13) 0 ^^^ (schedule b).getD (n + 8) 0 ^^^ (schedule b).getD (n + 2) 0 ^^^
        (schedule b).getD n 0) 1 := by
  have hread {m t : Nat} (hm : m ≤ 64) (ht : t < 16 + m) : (schedule b).getD t 0 = (scheduleWords b m).getD t 0 := by
    rw [schedule_eq_scheduleWords, scheduleWords_getD_of_le b hm ht]
  have hlast : (schedule b).getD (n + 16) 0 = nextScheduleWord (scheduleWords b n).reverse := by
    rw [hread (m := n + 1) (by omega) (by omega), scheduleWords_succ,
      List.getD_append_right _ _ _ _ (by rw [scheduleWords_length]; omega), scheduleWords_length,
      Nat.add_comm, Nat.sub_self, List.getD_cons_zero]
  rw [hlast, nextScheduleWord_reverse (scheduleWords_length b n)]
  iterate 4 rw [hread (m := n) (by omega) (by omega)]

/-- Settles O9. -/
theorem scheduleLoadAndExpansion : Obligations.ScheduleLoadAndExpansion := by
  unfold Obligations.ScheduleLoadAndExpansion
  refine fun b => ⟨schedule_length b, fun i hi => ?load, fun t ht16 ht80 => ?expand⟩
  case load => rw [schedule_getD_load b hi, blockWord, be32_toNat]
  case expand =>
    obtain ⟨n, rfl⟩ := Nat.exists_eq_add_of_le' ht16
    exact schedule_getD_expand b (by omega)

/-! ## The rounds -/

theorem runRounds_append (t : Nat) (ws vs : List Word) (v : Working) :
    runRounds t (ws ++ vs) v = runRounds (t + ws.length) vs (runRounds t ws v) := by
  induction ws generalizing t v with
  | nil => rfl
  | cons w ws ih => rw [List.cons_append, runRounds, ih, runRounds, List.length_cons, Nat.add_right_comm, Nat.add_assoc]

/-- R107. -/
theorem afterRounds_zero (h : Chain) (b : Block) : afterRounds h b 0 = loadWorking h := by
  rw [afterRounds, List.take_zero, runRounds]

/-- R108: each round is one more application of `round`, with the schedule word of its number. -/
theorem afterRounds_succ (h : Chain) (b : Block) {t : Nat} (ht : t < 80) :
    afterRounds h b (t + 1) = round t ((schedule b).getD t 0) (afterRounds h b t) := by
  have hlt : t < (schedule b).length := by rwa [schedule_length]
  rw [afterRounds, ← List.take_append_getElem hlt, runRounds_append, List.length_take_of_le hlt.le, Nat.zero_add,
    ← List.getD_eq_getElem _ 0 hlt, ← afterRounds, runRounds, runRounds]

/-- R109: what is added into `H` is the working variables after round 79. -/
theorem compress_eq_accumulate_afterRounds (h : Chain) (b : Block) :
    compress h b = accumulate h (afterRounds h b 80) := by
  rw [compress, afterRounds, List.take_of_length_le (schedule_length b).le]

/-- Settles O10. -/
theorem compressRunsEightyRounds : Obligations.CompressRunsEightyRounds := by
  unfold Obligations.CompressRunsEightyRounds
  intro h b
  refine ⟨afterRounds_zero h b, fun t ht => ?round, ?accumulation⟩
  case round => rw [afterRounds_succ h b ht, round, roundTemp, stage]
  case accumulation => rw [compress_eq_accumulate_afterRounds, accumulate]

/-! ## The recurrence on A -/

section Recurrence

variable (h : Chain) (b : Block) {t : Nat}

theorem afterRounds_succ_b (ht : t < 80) : (afterRounds h b (t + 1)).b = (afterRounds h b t).a := by
  rw [afterRounds_succ h b ht, round]

theorem afterRounds_succ_c (ht : t < 80) : (afterRounds h b (t + 1)).c = rotl32 (afterRounds h b t).b 30 := by
  rw [afterRounds_succ h b ht, round]

theorem afterRounds_succ_d (ht : t < 80) : (afterRounds h b (t + 1)).d = (afterRounds h b t).c := by
  rw [afterRounds_succ h b ht, round]

theorem afterRounds_succ_e (ht : t < 80) : (afterRounds h b (t + 1)).e = (afterRounds h b t).d := by
  rw [afterRounds_succ h b ht, round]

/-- R113 for `C`: it was `B` a round ago and `A` two rounds ago. -/
theorem afterRounds_c_eq_rotl32_a (ht : t + 2 ≤ 80) :
    (afterRounds h b (t + 2)).c = rotl32 (afterRounds h b t).a 30 := by
  rw [afterRounds_succ_c h b (by omega), afterRounds_succ_b h b (by omega)]

/-- R113 for `D`. -/
theorem afterRounds_d_eq_rotl32_a (ht : t + 3 ≤ 80) :
    (afterRounds h b (t + 3)).d = rotl32 (afterRounds h b t).a 30 := by
  rw [afterRounds_succ_d h b (by omega), afterRounds_c_eq_rotl32_a h b (by omega)]

/-- R113 for `E`. -/
theorem afterRounds_e_eq_rotl32_a (ht : t + 4 ≤ 80) :
    (afterRounds h b (t + 4)).e = rotl32 (afterRounds h b t).a 30 := by
  rw [afterRounds_succ_e h b (by omega), afterRounds_d_eq_rotl32_a h b (by omega)]

/-- R113, "without the rotation for those not yet rotated": what of `H` is left after one, two and three rounds. -/
theorem afterRounds_one : (afterRounds h b 1).c = rotl32 h.h1 30 ∧ (afterRounds h b 1).d = h.h2 ∧
    (afterRounds h b 1).e = h.h3 := by
  rw [afterRounds_succ_c h b (by omega), afterRounds_succ_d h b (by omega), afterRounds_succ_e h b (by omega),
    afterRounds_zero, loadWorking]
  exact ⟨rfl, rfl, rfl⟩

theorem afterRounds_two : (afterRounds h b 2).d = rotl32 h.h1 30 ∧ (afterRounds h b 2).e = h.h2 := by
  obtain ⟨hc, hd, -⟩ := afterRounds_one h b
  exact ⟨(afterRounds_succ_d h b (by omega)).trans hc, (afterRounds_succ_e h b (by omega)).trans hd⟩

theorem afterRounds_three : (afterRounds h b 3).e = rotl32 h.h1 30 := by
  obtain ⟨hd, -⟩ := afterRounds_two h b
  exact (afterRounds_succ_e h b (by omega)).trans hd

end Recurrence

/-- Settles O11. -/
theorem mixerRecurrenceOnA : Obligations.MixerRecurrenceOnA := by
  unfold Obligations.MixerRecurrenceOnA
  intro h b k hk
  obtain ⟨hc1, hd1, he1⟩ := afterRounds_one h b
  obtain ⟨hd2, he2⟩ := afterRounds_two h b
  refine ⟨fun h1 => ?b, fun h2 => ?c, fun h3 => ?d, fun h4 => ?e, ?_, ?_, ?_, ?_, ?_⟩
  case b =>
    obtain ⟨t, rfl⟩ := Nat.exists_eq_add_of_le' h1
    exact afterRounds_succ_b h b hk
  case c =>
    obtain ⟨t, rfl⟩ := Nat.exists_eq_add_of_le' h2
    exact afterRounds_c_eq_rotl32_a h b hk
  case d =>
    obtain ⟨t, rfl⟩ := Nat.exists_eq_add_of_le' h3
    exact afterRounds_d_eq_rotl32_a h b hk
  case e =>
    obtain ⟨t, rfl⟩ := Nat.exists_eq_add_of_le' h4
    exact afterRounds_e_eq_rotl32_a h b hk
  · rintro rfl; exact hc1
  · rintro rfl; exact hd2
  · rintro rfl; exact afterRounds_three h b
  · rintro rfl; exact ⟨hd1, he1⟩
  · rintro rfl; exact he2

/-! ## The 16-word window -/

/-- What a window that begins at word `t` holds. -/
theorem getD_drop (ws : List Word) (t k : Nat) : (ws.drop t).getD k 0 = ws.getD (t + k) 0 := by
  rw [List.getD_eq_getElem?_getD, List.getElem?_drop, List.getD_eq_getElem?_getD]

/-- R112: the word that the window computes is the schedule's next. -/
theorem windowNext_drop {ws : List Word} {t : Nat} (hlen : ws.length = 16 + t) :
    windowNext (ws.drop t) = nextScheduleWord ws.reverse := by
  rw [nextScheduleWord_reverse hlen, windowNext, getD_drop, getD_drop, getD_drop, getD_drop, Nat.add_zero t]

/-- The window before round `t` is the last 16 of the first `16 + t` schedule words; a round moves it on by one. -/
theorem window_advance (b : Block) (t : Nat) :
    ((scheduleWords b t).drop t).tail ++ [windowNext ((scheduleWords b t).drop t)] =
      (scheduleWords b (t + 1)).drop (t + 1) := by
  rw [windowNext_drop (scheduleWords_length b t), List.tail_drop, scheduleWords_succ,
    List.drop_append_of_le_length (by rw [scheduleWords_length]; omega)]

/-- The word at the front of the window before round `t` is `W[t]`. -/
theorem window_getD_zero (b : Block) {t : Nat} (ht : t < 80) :
    ((scheduleWords b t).drop t).getD 0 0 = (schedule b).getD t 0 := by
  rw [getD_drop, Nat.add_zero, schedule_eq_scheduleWords, scheduleWords_getD_eq b (n := 64) (by omega) ht]

/-- The simulation of R112: `n` rounds from the window before round `t` make the variables of `n` rounds more. -/
theorem rollRounds_afterRounds (h : Chain) (b : Block) (n : Nat) {t : Nat} (hn : t + n ≤ 80) :
    rollRounds n t ((scheduleWords b t).drop t) (afterRounds h b t) = afterRounds h b (t + n) := by
  induction n generalizing t with
  | zero => rfl
  | succ n ih =>
    have ht : t < 80 := by omega
    rw [rollRounds, window_advance, window_getD_zero b ht, ← afterRounds_succ h b ht, ih (by omega), Nat.add_right_comm,
      Nat.add_assoc]

/-- Settles O12, by the simulation over all 80 rounds. -/
theorem rollingWindowComputesCompress : Obligations.RollingWindowComputesCompress := by
  unfold Obligations.RollingWindowComputesCompress
  intro h b
  have hrounds : rollRounds 80 0 ((List.range 16).map (blockWord b)) (loadWorking h) = afterRounds h b 80 := by
    rw [← scheduleWords_zero, ← afterRounds_zero h b]
    exact rollRounds_afterRounds h b 80 (t := 0) le_rfl
  rw [compressRolling, hrounds, compress_eq_accumulate_afterRounds]

end Sys2Proof.Machine

/-!
The Digest Formatter (44_render.md, R120 to R123): `RENDER`, the bytes and the hex string of a payload, and what a
finalized session answers.
-/

namespace Sys2Proof.Machine

/-! ## RENDER -/

/-- R120 before the session is closed. -/
theorem exec_render_not_finalized {s : State} (hst : s.st ≠ .finalized) :
    exec .render s = .next (s.setRsp (some { status := .notFinalized, digest := none })) := by
  refine exec_raised ?_
  cases h : s.st with
  | accepting => rfl
  | overflowed => rfl
  | finalized => exact absurd h hst

/-- Settles O23: `RENDER` keeps `ST` and `H`, all that its answer depends on. -/
theorem renderMeaning : Obligations.RenderMeaning := by
  unfold Obligations.RenderMeaning
  refine ⟨by decide, fun s => ⟨exec_render_finalized, exec_render_not_finalized, fun t ht => ?repeated⟩⟩
  by_cases hst : s.st = .finalized
  · obtain rfl := Host.Outcome.next.inj ((exec_render_finalized hst).symm.trans ht)
    exact exec_render_finalized hst
  · obtain rfl := Host.Outcome.next.inj ((exec_render_not_finalized hst).symm.trans ht)
    exact exec_render_not_finalized hst

/-! ## The bytes of the digest -/

/-- R65: word `i` of the payload is `H[i]`. -/
theorem payloadWord_payload (h : Chain) (i : Fin 5) : payloadWord (payload h) i.val = h.get i := by
  obtain ⟨h0, h1, h2, h3, h4⟩ := payload_words h
  match i with
  | 0 => exact h0
  | 1 => exact h1
  | 2 => exact h2
  | 3 => exact h3
  | 4 => exact h4

/-- A field of a field is a field of the whole. -/
theorem extract_extract {n a l b m : Nat} (h : b + m ≤ l) (x : BitVec n) :
    (x.extractLsb' a l).extractLsb' b m = x.extractLsb' (a + b) m := by
  refine BitVec.eq_of_getLsbD_eq fun k hk => ?_
  have hkl : b + k < l := by omega
  simp only [BitVec.getLsbD_extractLsb', hkl, decide_true, Bool.true_and, Nat.add_assoc]

/-- R121 on the payload alone: byte `4i + j` is byte `j` of word `i`. -/
theorem payloadByte_eq_extract_payloadWord (d : Payload) {i j : Nat} (hi : i < 5) (hj : j < 4) :
    payloadByte d (4 * i + j) = (payloadWord d i).extractLsb' (24 - 8 * j) 8 := by
  rw [payloadByte, payloadWord, extract_extract (by omega),
    show 128 - 32 * i + (24 - 8 * j) = 152 - 8 * (4 * i + j) by omega]

/-- Settles O31. -/
theorem digestBytesBigEndian : Obligations.DigestBytesBigEndian := by
  unfold Obligations.DigestBytesBigEndian
  intro h i j hj
  rw [payloadByte_eq_extract_payloadWord _ i.isLt hj, payloadWord_payload]

/-! ## The hex string -/

/-- R122: `digit(v)` is found at position `v`. -/
theorem digits_getElem?_hexDigit : ∀ v : BitVec 4, "0123456789abcdef".toList[v.toNat]? = some (hexDigit v) := by
  decide

theorem hexDigit_injective : Function.Injective hexDigit := by
  unfold Function.Injective
  decide

@[simp] theorem hex8_length (w : Word) : (hex8 w).length = 8 := by
  rw [hex8, List.length_map, List.length_range]

/-- R122: character `j` of `hex8` is the digit of nibble `7 - j`. -/
theorem hex8_getElem? (w : Word) {j : Nat} (hj : j < 8) :
    (hex8 w)[j]? = some (hexDigit (w.extractLsb' (28 - 4 * j) 4)) := by
  rw [hex8, List.getElem?_map, List.getElem?_range hj, Option.map_some]

/-- A bit vector is known by its fields of `c` bits. -/
theorem eq_of_fields_eq {n c : Nat} (hc : 0 < c) {x y : BitVec n}
    (h : ∀ i, c * i < n → x.extractLsb' (c * i) c = y.extractLsb' (c * i) c) : x = y := by
  refine BitVec.eq_of_getLsbD_eq fun k hk => ?_
  have hfield := h (k / c) (Nat.lt_of_le_of_lt (Nat.mul_div_le k c) hk)
  have hbit := congrArg (·.getLsbD (k % c)) hfield
  simpa only [BitVec.getLsbD_extractLsb', Nat.mod_lt k hc, decide_true, Bool.true_and, Nat.div_add_mod] using hbit

theorem hex8_injective : Function.Injective hex8 := fun w v h => by
  refine eq_of_fields_eq (c := 4) (by decide) fun i hi => ?_
  have hdigit := congrArg (·[7 - i]?) h
  simp only [hex8_getElem? _ (show 7 - i < 8 by omega)] at hdigit
  rw [show 4 * i = 28 - 4 * (7 - i) by omega]
  exact hexDigit_injective (Option.some.inj hdigit)

/-- Equal concatenations of pieces of equal lengths have equal pieces. -/
theorem eq_of_flatMap_eq {α β : Type} {f g : α → List β} (hlen : ∀ a, (f a).length = (g a).length) {l : List α}
    (h : l.flatMap f = l.flatMap g) : ∀ a ∈ l, f a = g a := by
  induction l with
  | nil => simp
  | cons b l ih =>
    rw [List.flatMap_cons, List.flatMap_cons] at h
    obtain ⟨hhead, htail⟩ := List.append_inj h (hlen b)
    exact List.forall_mem_cons.2 ⟨hhead, ih htail⟩

theorem hex40_length (d : Payload) : (hex40 d).length = 40 := by
  simp [hex40, List.length_flatMap]

/-- R122: the string determines the payload, word by word. -/
theorem hex40_injective : Function.Injective hex40 := fun d e h => by
  have hwords := eq_of_flatMap_eq (fun i => by rw [hex8_length, hex8_length]) h
  refine eq_of_fields_eq (c := 32) (by decide) fun i hi => ?_
  have hword : payloadWord d (4 - i) = payloadWord e (4 - i) :=
    hex8_injective (hwords _ (List.mem_range.2 (by omega)))
  rwa [payloadWord, payloadWord, show 128 - 32 * (4 - i) = 32 * i by omega] at hword

/-- R122: the string of a digest, register by register. -/
theorem hex40_payload (h : Chain) :
    hex40 (payload h) = hex8 h.h0 ++ hex8 h.h1 ++ hex8 h.h2 ++ hex8 h.h3 ++ hex8 h.h4 := by
  have hwords : hex40 (payload h) = (List.finRange 5).flatMap fun i => hex8 (h.get i) := by
    simp only [← payloadWord_payload]
    rfl
  rw [hwords]
  simp [List.finRange_succ, Chain.get]

/-- Settles O32. -/
theorem hexStringOfDigest : Obligations.HexStringOfDigest := by
  unfold Obligations.HexStringOfDigest
  refine ⟨hex40_payload, fun w => ⟨hex8_length w, fun j hj => ?character⟩, hex40_length,
    fun d e h => hex40_injective h⟩
  rw [hex8_getElem? w hj, ← digits_getElem?_hexDigit, BitVec.extractLsb'_toNat, Nat.shiftRight_eq_div_pow]

/-! ## Finalized sessions -/

/-- What a finalized session whose payload is `d` answers to a word, by what the decoder makes of it (R23, R143). -/
def finalizedAnswer (d : Payload) : Decoded → Response
  | .command .init => { status := .ok, digest := none }
  | .command (.feed _) => { status := .invalidState, digest := none }
  | .command .finalize => { status := .invalidState, digest := none }
  | .command .render => { status := .ok, digest := some d }
  | .command .digest => { status := .ok, digest := some d }
  | .illegal _ => { status := .illegalCommand, digest := none }

/-- R123: no other payload appears. -/
theorem finalizedAnswer_digest (d : Payload) (c : Decoded) :
    (finalizedAnswer d c).digest = none ∨ (finalizedAnswer d c).digest = some d := by
  cases c with
  | command i =>
    cases i with
    | init => exact .inl rfl
    | feed b => exact .inl rfl
    | finalize => exact .inl rfl
    | render => exact .inr rfl
    | digest => exact .inr rfl
  | illegal why => exact .inl rfl

/-- R123: in a finalized session a command other than `INIT` writes its answer and nothing else. -/
theorem exec_finalized {s : State} (hst : s.st = .finalized) {i : Instr} (hi : i ≠ .init) :
    exec i s = .next (s.setRsp (some (finalizedAnswer (payload s.h) (.command i)))) := by
  cases i with
  | init => exact absurd rfl hi
  | feed b => exact exec_raised (by rw [hst]; rfl)
  | finalize => exact exec_raised (by rw [hst]; rfl)
  | render => exact exec_render_finalized hst
  | digest => exact exec_digest_finalized hst

/-- R123, R143: so does any word but `INIT`'s. -/
theorem step_finalized {s : State} (hst : s.st = .finalized) {w : CmdWord} {rest : List HostInput}
    (hinbox : s.inbox = .command w :: rest) (hw : decode w ≠ .command .init) :
    step s = .next ((s.setInbox rest).setRsp (some (finalizedAnswer (payload s.h) (decode w)))) := by
  cases hdecode : decode w with
  | command i =>
    have hi : i ≠ .init := by
      rintro rfl
      exact hw hdecode
    rw [step_command hinbox hdecode]
    exact exec_finalized (s := s.setInbox rest) hst hi
  | illegal why => rw [step_illegal hinbox hdecode, raise_eq, finalizedAnswer]

/-- R123: the responses of a finalized session, each by its own word alone. -/
theorem responses_finalized {s : State} (hst : s.st = .finalized) {ws : List CmdWord}
    (hws : ∀ w ∈ ws, decode w ≠ .command .init) :
    responses ws s = ws.map fun w => finalizedAnswer (payload s.h) (decode w) := by
  induction ws generalizing s with
  | nil => rfl
  | cons w ws ih =>
    obtain ⟨hw, hws⟩ := List.forall_mem_cons.1 hws
    rw [responses, step_finalized (s := s.setInbox [.command w]) hst rfl hw]
    simpa using ih (s := (s.setInbox []).setRsp _) hst hws

/-- Settles O29, by the answer of a finalized session to each word. -/
theorem finalizedDigestImmutable : Obligations.FinalizedDigestImmutable := by
  unfold Obligations.FinalizedDigestImmutable
  refine ⟨fun i s hst hi => ⟨_, exec_finalized hst hi, rfl, hst⟩, fun s ws hst hws => ?_⟩
  rw [responses_finalized hst hws]
  refine ⟨List.length_map _, fun k hk => ?_⟩
  have hanswer : (ws.map fun w => finalizedAnswer (payload s.h) (decode w))[k]? =
      some (finalizedAnswer (payload s.h) (decode (ws.getD k 0))) := by
    simp [hk]
  rw [hanswer]
  refine ⟨?shown, fun b hfeed => by rw [hfeed, finalizedAnswer], fun r hr => ?payload⟩
  case shown =>
    rintro (hdecode | hdecode) <;> rw [hdecode, finalizedAnswer]
  case payload =>
    obtain rfl := Option.some.inj hr
    exact finalizedAnswer_digest _ _

end Sys2Proof.Machine

/-!
The session commands (45_session.md, R130 to R134): `INIT`, `DIGEST`, a message too long for `HASH`, and that a session
does not depend on what was before it.
-/

namespace Sys2Proof.Machine

/-! ## INIT and DIGEST -/

/-- Settles O17: `INIT` writes constants only, so writing them again changes nothing. -/
theorem initMeaning : Obligations.InitMeaning := by
  unfold Obligations.InitMeaning
  refine ⟨by decide, fun s => ⟨exec_init s, fun t ht => ?repeated⟩⟩
  obtain rfl := Host.Outcome.next.inj ((exec_init s).symm.trans ht)
  exact exec_init _

/-- R131: where `FINALIZE` closes the session, `DIGEST` leaves the same state, with the digest on the port. -/
theorem exec_digest_of_finalize {s u : State} (hst : s.st = .accepting) (h : exec .finalize s = .next u) :
    exec .digest s = .next (u.setRsp (some { status := .ok, digest := some (payload u.h) })) := by
  rw [exec_finalize_accepting hst] at h
  obtain ⟨v, hclose, hanswer⟩ := andThen_eq_next.1 h
  obtain rfl := Host.Outcome.next.inj hanswer
  rw [exec_digest_accepting hst, hclose, andThen_next, respondOk_eq]
  rfl

/-- Settles O24: after `FINALIZE` the session is finalized, where `RENDER` and `DIGEST` answer alike. -/
theorem digestMeaning : Obligations.DigestMeaning := by
  unfold Obligations.DigestMeaning
  refine ⟨by decide, fun s => ⟨fun hst => ?overflowed, exec_digest_finalized, fun hst hfill => ?accepting⟩⟩
  case overflowed => exact exec_raised (by rw [hst]; rfl)
  case accepting =>
    obtain ⟨u, hfinalize, -⟩ := exec_answers (s := s) (by omega) .finalize
    obtain ⟨-, -, -, -, -, hclosed⟩ := closingCommandsFrame .finalize s u (.inl rfl) hfinalize
    obtain ⟨hu, -⟩ := hclosed hst
    exact ⟨u, _, hfinalize, exec_digest_of_finalize hst hfinalize, rfl, exec_render_finalized hu,
      exec_digest_finalized hu⟩

/-! ## HASH of a message that is too long -/

/-- A list longer than `n` has an entry after its first `n`. -/
theorem exists_eq_append_cons {α : Type} {n : Nat} {l : List α} (h : n < l.length) :
    ∃ x b y, l = x ++ b :: y ∧ x.length = n :=
  ⟨l.take n, l[n], l.drop (n + 1), by rw [List.getElem_cons_drop, List.take_append_drop],
    List.length_take_of_le (Nat.le_of_lt h)⟩

/-- R82: the byte after `2^61 - 1` bytes is refused. -/
theorem Fed.exec_feed_full {m : List Byte} {s : State} (h : Fed m s) (hm : m.length = 2 ^ 61 - 1) (b : Byte) :
    exec (.feed b) s = .next ((s.setSt .overflowed).setRsp (some { status := .overflowed, digest := none })) := by
  have hlen := h.len
  exact exec_feed_overflow h.st (by omega) b

/-- R82, R83: `FEEDS` of `2^61` bytes or more overflows the session at the byte after the first `2^61 - 1`, and the rest
changes nothing. -/
theorem Fed.runInstrs_feeds_overflow {m : List Byte} {s : State} (h : Fed [] s) (hm : 2 ^ 61 ≤ m.length) :
    ∃ t, runInstrs (feeds m) s = .next t ∧ t.st = .overflowed := by
  obtain ⟨x, b, y, rfl, hx⟩ := exists_eq_append_cons (n := 2 ^ 61 - 1) (l := m) (by omega)
  obtain ⟨u, hfeeds, hu⟩ := h.runInstrs_feeds_alone (x := x) (Nat.le_of_eq hx)
  refine ⟨(u.setSt .overflowed).setRsp (some { status := .overflowed, digest := none }), ?_, rfl⟩
  rw [runInstrs_feeds_append hfeeds, feeds, List.map_cons, runInstrs, hu.exec_feed_full hx, andThen_next]
  exact runInstrs_feeds_raising rfl rfl y

/-- R133: `HASH` of `2^61` bytes or more, as commands. -/
theorem runInstrs_hash_overflow {m : List Byte} (s : State) (hm : 2 ^ 61 ≤ m.length) :
    ∃ t, runInstrs (hash m) s = .next t ∧ t.rsp = some { status := .overflowed, digest := none } := by
  obtain ⟨u, hfeeds, hst⟩ := (init_fed s (some { status := .ok, digest := none })).runInstrs_feeds_overflow hm
  have hdigest : exec .digest u = .next (u.setRsp (some { status := .overflowed, digest := none })) :=
    exec_raised (by rw [hst]; rfl)
  refine ⟨_, ?_, State.setRsp_rsp u _⟩
  rw [hash, List.cons_append, runInstrs, exec_init, andThen_next, runInstrs_append, hfeeds, andThen_next, runInstrs,
    hdigest, andThen_next, runInstrs]

/-- Settles O44: the words of `HASH` do what its commands do. -/
theorem hashTooLongOverflows : Obligations.HashTooLongOverflows := by
  unfold Obligations.HashTooLongOverflows
  intro m s rest hm
  have hlength : (hash m).length = m.length + 2 := by simp [hash, feeds]
  obtain ⟨t, hrun, hrsp⟩ := runInstrs_hash_overflow s hm
  rw [← hlength]
  exact ⟨t.setInbox rest, run_assemble hrun rest, hrsp, rfl⟩

/-! ## The past of a session -/

/-- R51, R134: agreeing machines answer every sequence of words alike. -/
theorem Agree.responses_eq {s t : State} (h : Agree s t) (hfill : s.fill.val < 64) (ws : List CmdWord) :
    responses ws s = responses ws t := by
  induction ws generalizing s t with
  | nil => rfl
  | cons w ws ih =>
    obtain ⟨s', t', hs, ht, hrsp, hagree, hfill'⟩ := agreeingMachinesAnswerAlike s t w hfill h
    rw [responses, responses, State.setInbox, State.setInbox, hs, ht]
    simp only [hrsp, ih hagree hfill']

/-- Settles O48: `INIT` and reset give any two machines the same registers and leave no byte pending. -/
theorem responsesForgetThePast : Obligations.ResponsesForgetThePast := by
  unfold Obligations.ResponsesForgetThePast
  intro s t ws
  have hinit (r : Option Response) : Agree ((freshSession s).setRsp r) ((freshSession t).setRsp r) :=
    .of_fill_zero rfl rfl rfl rfl rfl
  have hreset : Agree (applyRst s) (applyRst t) := .of_fill_zero rfl rfl rfl rfl rfl
  refine ⟨?init, hreset.responses_eq (Nat.zero_lt_succ _) ws⟩
  rw [responses_encode_cons (exec_init s), responses_encode_cons (exec_init t), State.setRsp_rsp, State.setRsp_rsp,
    (hinit _).responses_eq (Nat.zero_lt_succ _) ws]

end Sys2Proof.Machine

/-!
Errors (60_exceptions.md, R144, R145, R152): what a failed command leaves, what leaves a terminal `ST`, and that no input
stops the engine.
-/

namespace Sys2Proof.Machine

/-! ## No error stops the engine -/

/-- R152: a state with the invariant has a next step. -/
theorem EngineInv.step_completes {s : State} (h : EngineInv s) : ∃ t, step s = .next t := by
  match hinbox : s.inbox with
  | [] => exact ⟨noInput s, by rw [step, hinbox]⟩
  | .idle :: rest => exact ⟨noInput (s.setInbox rest), by rw [step, hinbox]⟩
  | .rst :: rest => exact ⟨applyRst (s.setInbox rest), by rw [step, hinbox]⟩
  | .commandThenRst _ :: rest => exact ⟨applyRst (s.setInbox rest), by rw [step, hinbox]⟩
  | .command w :: rest =>
    obtain ⟨t, -, hstep, -⟩ := step_answers h hinbox
    exact ⟨t, hstep⟩

/-- A predicate from whose states the engine always steps, and to a state of its own, holds after any number of steps. -/
theorem run_completes_of_step {P : State → Prop} (hstep : ∀ s, P s → ∃ t, step s = .next t ∧ P t) (n : Nat) {s : State}
    (hs : P s) : ∃ t, Host.Core.run Sys2Proof.core n s = .next t ∧ P t := by
  induction n generalizing s with
  | zero => exact ⟨s, rfl, hs⟩
  | succ n ih =>
    obtain ⟨u, hsu, hu⟩ := hstep s hs
    obtain ⟨t, hrun, ht⟩ := ih hu
    exact ⟨t, (run_next hsu n).trans hrun, ht⟩

/-- Settles O39: R21 with its history is kept by every step, so it holds after any number of them from reset. -/
theorem engineNeverStops : Obligations.EngineNeverStops := by
  unfold Obligations.EngineNeverStops
  have hprogress (s : State) (h : EngineInv s) : ∃ t, step s = .next t ∧ EngineInv t := by
    obtain ⟨t, hstep⟩ := h.step_completes
    exact ⟨t, hstep, stepKeepsInvariant s t h hstep⟩
  refine ⟨hprogress, fun ins n => ?_⟩
  refine run_completes_of_step (P := fun s => EngineInv s ∧ SessionInv s) (fun s ⟨h, hsession⟩ => ?step) n ?reset
  case step =>
    obtain ⟨t, hstep, ht⟩ := hprogress s h
    exact ⟨t, hstep, ht, stepKeepsSessionHistory s t hsession hstep⟩
  case reset =>
    exact ⟨resetMeetsInvariant.setInbox ins, resetBeginsSession.of_sameMachine (sameMachine_setInbox _ ins)⟩

/-! ## What a failed command leaves -/

/-- R144: a command fails by its lifecycle check, or it is the `FEED` that detects overflow. -/
theorem CommandEffect.failed {i : Instr} {s t : State} (heffect : CommandEffect s i t) {r : Response}
    (hrsp : t.rsp = some r) (hr : r.status ≠ .ok) :
    r.digest = none ∧
      ((commandGuard s.st i = some r.status ∧ t = s.setRsp (some r)) ∨
        ((∃ b, i = .feed b) ∧ s.st = .accepting ∧ r.status = .overflowed ∧
          t = (s.setSt .overflowed).setRsp (some r))) := by
  cases heffect with
  | raised hg => cases hrsp; exact ⟨rfl, .inl ⟨hg, rfl⟩⟩
  | overflowed b hst _ => cases hrsp; exact ⟨rfl, .inr ⟨⟨b, rfl⟩, hst, rfl, rfl⟩⟩
  | begun | stored | filled | closed | shown => cases hrsp; exact absurd rfl hr

/-- A step that takes one input and writes the response port leaves the machine as it was. -/
theorem sameMachine_taken (s : State) (rest : List HostInput) (r : Option Response) :
    SameMachine s ((s.setInbox rest).setRsp r) := id rfl

/-- Settles O27: a command fails in one of two ways; a word that does not decode only raises. -/
theorem raiseWritesNothing : Obligations.RaiseWritesNothing := by
  unfold Obligations.RaiseWritesNothing
  intro s t w rest r hinbox hstep hrsp hr
  cases hdecode : decode w with
  | illegal why =>
    obtain rfl := Host.Outcome.next.inj ((step_illegal hinbox hdecode).symm.trans hstep)
    cases hrsp
    exact ⟨rfl, .inl (sameMachine_taken s rest _)⟩
  | command i =>
    have heffect := exec_effect ((step_command hinbox hdecode).symm.trans hstep)
    obtain ⟨hdigest, ⟨-, rfl⟩ | ⟨⟨b, rfl⟩, hst, hover, rfl⟩⟩ := heffect.failed hrsp hr
    · exact ⟨hdigest, .inl (sameMachine_taken s rest _)⟩
    · exact ⟨hdigest, .inr ⟨⟨b, rfl⟩, hst, hover, rfl, sameMachine_taken (s.setSt .overflowed) rest _⟩⟩

/-- R145: a failed command leaves an `ST` in which its check raises the status it failed with. -/
theorem CommandEffect.failed_guard {i : Instr} {s t : State} (heffect : CommandEffect s i t) {r : Response}
    (hrsp : t.rsp = some r) (hr : r.status ≠ .ok) : commandGuard t.st i = some r.status := by
  obtain ⟨-, ⟨hguard, rfl⟩ | ⟨⟨b, rfl⟩, -, hover, rfl⟩⟩ := heffect.failed hrsp hr
  · exact hguard
  · rw [hover]
    rfl

/-! ## The terminal values of `ST` -/

/-- R23: in an overflowed session every command but `INIT` raises. -/
theorem overflowed_guard {i : Instr} (hi : i ≠ .init) : ∃ e, commandGuard .overflowed i = some e := by
  cases i with
  | init => exact absurd rfl hi
  | feed b => exact ⟨_, rfl⟩
  | finalize => exact ⟨_, rfl⟩
  | render => exact ⟨_, rfl⟩
  | digest => exact ⟨_, rfl⟩

/-- R145: in a terminal `ST` a command other than `INIT` writes its answer and nothing else. -/
theorem exec_terminal {s : State} (hst : s.st = .overflowed ∨ s.st = .finalized) {i : Instr} (hi : i ≠ .init) :
    ∃ r, exec i s = .next (s.setRsp r) := by
  obtain hst | hst := hst
  · obtain ⟨e, hguard⟩ := overflowed_guard hi
    exact ⟨_, exec_raised (hst ▸ hguard)⟩
  · exact ⟨_, exec_finalized hst hi⟩

/-- Settles O28: the cases of a step are the host's inputs; a failed command is raised again by its check. -/
theorem terminalStatesLeftOnlyByInit : Obligations.TerminalStatesLeftOnlyByInit := by
  unfold Obligations.TerminalStatesLeftOnlyByInit
  refine ⟨fun s hst hword hrst habandoned => ?held, fun i s t r hexec hrsp hr => ?again⟩
  case held =>
    match hinbox : s.inbox with
    | [] => exact ⟨noInput s, by rw [step, hinbox], sameMachine_setRsp s none, hinbox⟩
    | .idle :: rest => exact ⟨noInput (s.setInbox rest), by rw [step, hinbox], sameMachine_taken s rest none, rfl⟩
    | .rst :: rest => exact absurd hinbox (hrst rest)
    | .commandThenRst w :: rest => exact absurd hinbox (habandoned w rest)
    | .command w :: rest =>
      cases hdecode : decode w with
      | illegal why => exact ⟨_, step_illegal hinbox hdecode, sameMachine_taken s rest _, rfl⟩
      | command i =>
        have hi : i ≠ .init := by
          rintro rfl
          exact hword w rest hinbox hdecode
        obtain ⟨r, hexec⟩ := exec_terminal (s := s.setInbox rest) hst hi
        exact ⟨_, (step_command hinbox hdecode).trans hexec, sameMachine_taken s rest r, rfl⟩
  case again =>
    have heffect := exec_effect hexec
    have hport : t.rsp = some { status := r.status, digest := none } := by
      rw [hrsp, ← (heffect.failed hrsp hr).1]
    rw [exec_raised (heffect.failed_guard hrsp hr), ← hport]
    rfl

end Sys2Proof.Machine

/-!
Reset and hazards (70_reset_and_hazards.md, R160, R168): the step on `rst`, and the step on nothing from the host.
-/

namespace Sys2Proof.Machine

/-- R160: `rst` resets the machine whether it comes alone or abandons the command of a word just accepted. -/
theorem step_reset {s : State} {w : CmdWord} {rest : List HostInput}
    (hinbox : s.inbox = .rst :: rest ∨ s.inbox = .commandThenRst w :: rest) :
    step s = .next (applyRst (s.setInbox rest)) := by
  obtain hrst | habandoned := hinbox
  · rw [step, hrst]
  · rw [step, habandoned]

/-- R168: a step when the host has no further inputs. -/
theorem step_of_inbox_nil {s : State} (hinbox : s.inbox = []) : step s = .next (noInput s) := by
  rw [step, hinbox]

/-- R168: a step at a boundary where the host does nothing. -/
theorem step_idle {s : State} {rest : List HostInput} (hinbox : s.inbox = .idle :: rest) :
    step s = .next (noInput (s.setInbox rest)) := by
  rw [step, hinbox]

/-- Settles O34: both inputs lead to `applyRst`, whose fields are the reset values of R160. -/
theorem resetInputMakesFreshSession : Obligations.ResetInputMakesFreshSession := by
  unfold Obligations.ResetInputMakesFreshSession
  intro s rest w hinbox
  have hnoResponse : rspValid (applyRst (s.setInbox rest)) = false := by
    rw [rspValid, applyRst_rsp, Option.isSome_none]
  exact ⟨applyRst (s.setInbox rest), step_reset hinbox, applyRst_h _, congrArg Fin.val (applyRst_fill _), applyRst_len _,
    applyRst_st _, hnoResponse, rfl, applyRst_inbox _⟩

/-- Settles O36: `noInput` is the record update that the statement writes. -/
theorem idleBoundaryHoldsState : Obligations.IdleBoundaryHoldsState := by
  unfold Obligations.IdleBoundaryHoldsState
  exact fun s => ⟨step_of_inbox_nil, fun _ => step_idle⟩

end Sys2Proof.Machine
